-- ==== Sys2Proof/Word.lean ====
section
/-!
DEFINITION. Word types of the HFA core.

Every value of the hardware is an unsigned number of 8, 16 or 32 bits (R8, R10), carried as a bit vector whose bit `i`
has weight `2^i` (R12): the value side of the core has no byte order. The byte order of the buffer is in
`Sys2Proof.Machine.ByteOrder`.

A memory address has no type here: its width `PA_W` is an argument of the model (R6), so it is a natural number, and which of them
exist is `Config.addressSpace` (log 4).
-/
namespace Sys2Proof

/-- A byte, 8 bits (R9); also the u8 of R10. -/
abbrev Byte := BitVec 8

/-- A u16 (R10). -/
abbrev Half := BitVec 16

/-- A u32 (R10); also the `val` field of a response word (R85). -/
abbrev Value := BitVec 32

/-- The byte offset operand of a primitive, the field `off` of the command word: 16 bits (R70, R73). -/
abbrev Offset := BitVec 16

/-- A protocol version tag, 8 bits (R13, R75). -/
abbrev VersionTag := BitVec 8

/-- A command word, 64 bits (R70). -/
abbrev CommandWord := BitVec 64

/-- A response word, 34 bits (R85). -/
abbrev ResponseWord := BitVec 34

end Sys2Proof
end

