-- ==== Sys2Proof/Syntax.lean ====
section
/-!
DEFINITION. The 22 commands of the HFA core (R76, spec/opcode_table.json), one constructor each, with the operands the
command word carries. The document calls a command's buffer its first argument; it travels on the sidebands (R83) and is
no operand here.
-/
namespace Sys2Proof

/-- The seven fixed header fields, in the order of their selectors 1 to 7 (R71, R120). -/
inductive Field where
  | version
  | type
  | length
  | xid
  | statsType
  | experimenterId
  | experimenterSubtype
  deriving DecidableEq, Repr

/-- The command set (R4, R76). Operand widths are those of R73, R74 and R75: an offset has 16 bits, a version tag 8, a value
the width of what it is stored to, but for `set_command`, whose value has 8 bits for every tag. -/
inductive Instr where
  | getU8 (off : Offset)
  | setU8 (off : Offset) (val : Byte)
  | getU16 (off : Offset)
  | setU16 (off : Offset) (val : Half)
  | getU32 (off : Offset)
  | setU32 (off : Offset) (val : Value)
  | getVersion
  | setVersion (val : Byte)
  | getType
  | setType (val : Byte)
  | getLength
  | setLength (val : Half)
  | getXid
  | setXid (val : Value)
  | getStatsType
  | setStatsType (val : Half)
  | getExperimenterId
  | setExperimenterId (val : Value)
  | getExperimenterSubtype
  | setExperimenterSubtype (val : Value)
  | getCommand (ver : VersionTag)
  | setCommand (ver : VersionTag) (val : Byte)
  deriving DecidableEq, Repr

end Sys2Proof
end

