-- ==== Sys2Proof/Machine/Fields.lean ====
section
/-!
DEFINITION. The fields of a command word (R70) and the subfields of its opcode (R71).
-/
namespace Sys2Proof

/-- The four fields of a command word (R70). -/
structure Fields where
  opc : BitVec 8
  ver : BitVec 8
  off : BitVec 16
  val : BitVec 32
  deriving DecidableEq, Repr

/-- `cw = {val, off, ver, opc}` (R70). -/
def Fields.toWord (f : Fields) : CommandWord := f.val ++ f.off ++ f.ver ++ f.opc

/-- The four fields out of a command word (R70). -/
def Fields.ofWord (cw : CommandWord) : Fields :=
  { opc := cw.extractLsb' 0 8, ver := cw.extractLsb' 8 8, off := cw.extractLsb' 16 16, val := cw.extractLsb' 32 32 }

/-- `opc[7:4]` (R71). -/
def Fields.sel (f : Fields) : Nat := f.opc.toNat / 16

/-- `opc[3]` (R71). -/
def Fields.rsv (f : Fields) : Nat := f.opc.toNat / 8 % 2

/-- `opc[2:1]` (R71). -/
def Fields.wc (f : Fields) : Nat := f.opc.toNat / 2 % 4

/-- `opc[0]` (R71): 0 get, 1 set. -/
def Fields.dir (f : Fields) : Nat := f.opc.toNat % 2

/-- The selectors of the fixed fields (R71, R120). -/
def Field.ofSel : Nat → Option Field
  | 1 => some .version
  | 2 => some .type
  | 3 => some .length
  | 4 => some .xid
  | 5 => some .statsType
  | 6 => some .experimenterId
  | 7 => some .experimenterSubtype
  | _ => none

end Sys2Proof
end

