-- ==== Sys2Proof/Config.lean ====
section
/-!
DEFINITION. What an instance of the core fixes (R6, R23), and the one free value of the model.

The four parameters of R6 that belong to the instance are the fields of `Config`. State carries one `Config`, and no step changes it,
so every statement about all states holds for every instance. The other two parameters of R6, `LEN` and `base`, come with each
request (`Sys2Proof.Machine.Sideband`).
-/
namespace Sys2Proof

/-- The parameters of an instance (R6, R23). -/
structure Config where
  /-- `AW`, the width in bits of a byte offset: a buffer has at most `2^AW` bytes (R6, R83; log 4). -/
  aw : Nat
  /-- `PA_W`, the width in bits of the buffer pointer and of a memory address (R6; log 4). -/
  paW : Nat
  /-- `VER_1_0`, the tag that stands for protocol version 1.0 (R6, R151; log 2). -/
  verOneZero : VersionTag
  /-- `DEBUG_ASSERT` (R6, R172; log 3): true is 1. -/
  debugAssert : Bool
  deriving DecidableEq, Repr

/-- The instance with the values R6 gives the parameters: `AW = 16`, `PA_W = 32`, `VER_1_0 = 0x01`, `DEBUG_ASSERT = 0`. -/
def Config.default : Config := { aw := 16, paW := 32, verOneZero := 0x01, debugAssert := false }

/-- `2^PA_W`, the number of byte addresses (R6, R48). -/
def Config.addressSpace (c : Config) : Nat := 2 ^ c.paW

/-- `2^AW`, the largest length of a buffer (R6, R83). -/
def Config.maxLen (c : Config) : Nat := 2 ^ c.aw

/-- FREE VALUE (log 9): which of the byte transactions that remain the core offers next. R46 leaves the order of the byte
transactions of one access unspecified; the argument is the model's counter `State.fresh`, and the result is taken modulo the
number of transactions that remain. It has no body, so no proof can know it. -/
opaque Config.nextByte : Nat → Nat

end Sys2Proof
end

