-- ==== Sys2Proof/Machine/ByteOrder.lean ====
section
/-!
DEFINITION. The byte order primitives of R11: `from_be` and `to_be`. Every multi-byte access of the core is big-endian (R40)
and nothing can switch it (R41).
-/
namespace Sys2Proof.Machine

/-- `from_be(B)` of R11: the sum over `i` of `B[i] * 256^(n-1-i)`, the first byte the most significant. -/
def fromBe : List Byte → Nat
  | [] => 0
  | b :: bs => b.toNat * 256 ^ bs.length + fromBe bs

/-- `to_be(n, v)` of R11: `n` bytes with `B[i] = (v >> (8*(n-1-i))) & 0xFF`, the most significant first. -/
def toBe : Nat → Nat → List Byte
  | 0, _ => []
  | n + 1, v => BitVec.ofNat 8 (v >>> (8 * n)) :: toBe n v

/-- A value as a get returns it: the low `n` bytes of the number, in the 32 bits of a response (`trunc_8n`, then `zext_32`, of
R11; R85). With `n` the width of the access it drops nothing; with `n = 1` on a two-byte access it is the narrowing of R154. -/
def narrow (n v : Nat) : Value := BitVec.ofNat 32 (v % 256 ^ n)

end Sys2Proof.Machine
end

