-- ==== Sys2Proof/Machine/Operands.lean ====
section
/-!
DEFINITION. Where each command acts: the constant table of HFX (R120, R121), the router FMR (R150), the minimum buffer lengths
(R52), and the access that every command hands to BOP (R2, R3, R121).
-/
namespace Sys2Proof.Machine

/-- A location: a byte offset from the buffer pointer and a width in bytes (R121, R150). -/
structure Location where
  off : Nat
  width : Nat
  deriving DecidableEq, Repr

/-- HFX: `field_location` of R121, the columns FIELD_OFFSET and FIELD_WIDTH of the table of R120. -/
def fieldLocation : Field → Location
  | .version => ⟨0, 1⟩
  | .type => ⟨1, 1⟩
  | .length => ⟨2, 2⟩
  | .xid => ⟨4, 4⟩
  | .statsType => ⟨8, 2⟩
  | .experimenterId => ⟨8, 4⟩
  | .experimenterSubtype => ⟨12, 4⟩

/-- `MINLEN(field)`, the last column of the tables of R52 and R120. -/
def fieldMinLen : Field → Nat
  | .version => 8
  | .type => 8
  | .length => 8
  | .xid => 8
  | .statsType => 10
  | .experimenterId => 16
  | .experimenterSubtype => 16

/-- FMR: `flow_mod_command_location(ver)` of R150. The test is an equality of all 8 bits with `VER_1_0` (R151). -/
def flowModLocation (c : Config) (ver : VersionTag) : Location :=
  if ver = c.verOneZero then ⟨56, 2⟩ else ⟨25, 1⟩

/-- `MINLEN` of the flow-mod command (R52): 58 for `VER_1_0` (conflict C1), 26 for every other tag. -/
def flowModMinLen (c : Config) (ver : VersionTag) : Nat :=
  if ver = c.verOneZero then 58 else 26

/-- What BOP does at a location: load, and answer the low `valueBytes` bytes of the number read; or store bytes. No command
does both (R47, R61). -/
inductive Action where
  | load (valueBytes : Nat)
  | store (bytes : List Byte)
  deriving DecidableEq, Repr

/-- The access a command hands to BOP: where, the least `LEN` with which the command is in contract (R50, R51), and what. -/
structure Access where
  loc : Location
  minLen : Nat
  action : Action
  deriving DecidableEq, Repr

/-- A primitive get of width `w` (R101, R102, R103); its contract is `off + w <= LEN` (R50). -/
def primGet (w : Nat) (off : Offset) : Access :=
  { loc := ⟨off.toNat, w⟩, minLen := off.toNat + w, action := .load w }

/-- A primitive set of width `w` (R104, R105, R106). -/
def primSet (w : Nat) (off : Offset) (v : Nat) : Access :=
  { loc := ⟨off.toNat, w⟩, minLen := off.toNat + w, action := .store (toBe w v) }

/-- A field get: the primitive of the field's width at the field's offset, under the field's own contract (R121, R51). -/
def fieldGet (f : Field) : Access :=
  { loc := fieldLocation f, minLen := fieldMinLen f, action := .load (fieldLocation f).width }

/-- A field set (R121, R51). -/
def fieldSet (f : Field) (v : Nat) : Access :=
  { loc := fieldLocation f, minLen := fieldMinLen f, action := .store (toBe (fieldLocation f).width v) }

/-- `get_command` (R152): the routed location is read whole, and the low 8 bits are the value for every tag (R154). -/
def commandGet (c : Config) (ver : VersionTag) : Access :=
  { loc := flowModLocation c ver, minLen := flowModMinLen c ver, action := .load 1 }

/-- `set_command` (R153): the 8-bit value, zero-extended to the routed width, is stored big-endian (R159). -/
def commandSet (c : Config) (ver : VersionTag) (v : Byte) : Access :=
  { loc := flowModLocation c ver, minLen := flowModMinLen c ver,
    action := .store (toBe (flowModLocation c ver).width v.toNat) }

/-- The access of each command on an instance (R76): what the port-level core performs byte by byte. -/
def accessOf (c : Config) : Instr → Access
  | .getU8 off => primGet 1 off
  | .setU8 off val => primSet 1 off val.toNat
  | .getU16 off => primGet 2 off
  | .setU16 off val => primSet 2 off val.toNat
  | .getU32 off => primGet 4 off
  | .setU32 off val => primSet 4 off val.toNat
  | .getVersion => fieldGet .version
  | .setVersion val => fieldSet .version val.toNat
  | .getType => fieldGet .type
  | .setType val => fieldSet .type val.toNat
  | .getLength => fieldGet .length
  | .setLength val => fieldSet .length val.toNat
  | .getXid => fieldGet .xid
  | .setXid val => fieldSet .xid val.toNat
  | .getStatsType => fieldGet .statsType
  | .setStatsType val => fieldSet .statsType val.toNat
  | .getExperimenterId => fieldGet .experimenterId
  | .setExperimenterId val => fieldSet .experimenterId val.toNat
  | .getExperimenterSubtype => fieldGet .experimenterSubtype
  | .setExperimenterSubtype val => fieldSet .experimenterSubtype val.toNat
  | .getCommand ver => commandGet c ver
  | .setCommand ver val => commandSet c ver val

/-- The command is a set (`dir = 1`, R71). -/
def isSet (c : Config) (i : Instr) : Bool :=
  match (accessOf c i).action with
  | .load _ => false
  | .store _ => true

end Sys2Proof.Machine
end

