-- ==== Sys2Proof/WellFormed.lean ====
section
/-!
DEFINITION. When the fields of a command word are well-formed: the six formats and their must-be-zero bits (R72). The operands of `Instr` carry their widths in their types, so every `Instr` is well-formed; what can be ill-formed is
the four fields of a word, and a word is a command exactly when they are well-formed (R78, R84).
-/
namespace Sys2Proof

/-- The six formats of R72; a set format carries its operand's width in bytes. -/
inductive Format where
  | pg
  | ps (w : Nat)
  | fg
  | fs (w : Nat)
  | vg
  | vs
  deriving DecidableEq, Repr

/-- The format an opcode selects (column `opc` of R72); none for a reserved opcode (R78). -/
def Fields.format (f : Fields) : Option Format :=
  if f.rsv = 1 then none
  else if f.sel = 0 then
    if f.wc = 3 then none else if f.dir = 0 then some .pg else some (.ps (2 ^ f.wc))
  else if f.wc ≠ 0 then none
  else if f.sel = 8 then if f.dir = 0 then some .vg else some .vs
  else match Field.ofSel f.sel with
    | none => none
    | some x => if f.dir = 0 then some .fg else some (.fs (Machine.fieldLocation x).width)

/-- `ver` is an operand of this format; else it must be zero (R72). -/
def Format.takesVer : Format → Bool
  | .vg | .vs => true
  | .pg | .ps _ | .fg | .fs _ => false

/-- `off` is an operand of this format; else it must be zero (R72). -/
def Format.takesOff : Format → Bool
  | .pg | .ps _ => true
  | .fg | .fs _ | .vg | .vs => false

/-- How many low bits of `val` are operand; the bits above must be zero (R72). -/
def Format.valBits : Format → Nat
  | .pg | .fg | .vg => 0
  | .ps w | .fs w => 8 * w
  | .vs => 8

/-- The must-be-zero checks of a format: every bit of `ver`, `off` and `val` that is no operand is 0 (R72). -/
def Fields.mbzOk (f : Fields) (fmt : Format) : Bool :=
  (fmt.takesVer || f.ver == 0) && (fmt.takesOff || f.off == 0) && f.val >>> fmt.valBits == 0

/-- The fields of a legal command word (R72, R78). -/
def Fields.wellFormed (f : Fields) : Bool :=
  match f.format with
  | none => false
  | some fmt => f.mbzOk fmt

end Sys2Proof
end

