-- ==== Sys2Proof/Decode.lean ====
section
/-!
DEFINITION. The decoder of R77, a total function of the 64 bits, and after it the encoder, from the tables of R70, R72 and
R76, and the opcode map of R84 (spec/opcode_table.json).
-/
namespace Sys2Proof

/-- Why a word is no command, in the order R77 tests (R78). -/
inductive Illegal where
  /-- `opc[3] = 1`. -/
  | reservedBit
  /-- `sel = 0` with `wc = 3`, or `sel` in 1..8 with `wc != 0`. -/
  | widthCode
  /-- `sel` in 9..15. -/
  | selector
  /-- A 1 in a must-be-zero `ver`. -/
  | verNotZero
  /-- A 1 in a must-be-zero `off`. -/
  | offNotZero
  /-- A 1 in a must-be-zero bit of `val`. -/
  | valNotZero
  deriving DecidableEq, Repr

/-- `PrimGet(w, off)` of R77, by width code. -/
def primGetOf (wc : Nat) (off : Offset) : Instr :=
  match wc with
  | 0 => .getU8 off
  | 1 => .getU16 off
  | _ => .getU32 off

/-- `PrimSet(w, off, val[8*w-1:0])` of R77, by width code. -/
def primSetOf (wc : Nat) (off : Offset) (val : Value) : Instr :=
  match wc with
  | 0 => .setU8 off (val.setWidth 8)
  | 1 => .setU16 off (val.setWidth 16)
  | _ => .setU32 off val

/-- `FieldGet(sel)` of R77. -/
def fieldGetOf : Field → Instr
  | .version => .getVersion
  | .type => .getType
  | .length => .getLength
  | .xid => .getXid
  | .statsType => .getStatsType
  | .experimenterId => .getExperimenterId
  | .experimenterSubtype => .getExperimenterSubtype

/-- `FieldSet(sel, val[8*w-1:0])` of R77. -/
def fieldSetOf (f : Field) (val : Value) : Instr :=
  match f with
  | .version => .setVersion (val.setWidth 8)
  | .type => .setType (val.setWidth 8)
  | .length => .setLength (val.setWidth 16)
  | .xid => .setXid val
  | .statsType => .setStatsType (val.setWidth 16)
  | .experimenterId => .setExperimenterId val
  | .experimenterSubtype => .setExperimenterSubtype val

/-- `decode` of R77, test by test in its order, on the subfields of the opcode and the other three fields. -/
def decodeParts (sel rsv wc dir : Nat) (ver : VersionTag) (off : Offset) (val : Value) : Except Illegal Instr :=
  if rsv = 1 then .error .reservedBit
  else if sel = 0 then
    if wc = 3 then .error .widthCode
    else if ver ≠ 0#8 then .error .verNotZero
    else if dir = 0 then
      if val ≠ 0#32 then .error .valNotZero else .ok (primGetOf wc off)
    else if val >>> (8 * 2 ^ wc) ≠ 0#32 then .error .valNotZero
    else .ok (primSetOf wc off val)
  else match Field.ofSel sel with
    | some x =>
      if wc ≠ 0 then .error .widthCode
      else if ver ≠ 0#8 then .error .verNotZero
      else if off ≠ 0#16 then .error .offNotZero
      else if dir = 0 then
        if val ≠ 0#32 then .error .valNotZero else .ok (fieldGetOf x)
      else if val >>> (8 * (Machine.fieldLocation x).width) ≠ 0#32 then .error .valNotZero
      else .ok (fieldSetOf x val)
    | none =>
      if sel = 8 then
        if wc ≠ 0 then .error .widthCode
        else if off ≠ 0#16 then .error .offNotZero
        else if dir = 0 then
          if val ≠ 0#32 then .error .valNotZero else .ok (.getCommand ver)
        else if val >>> 8 ≠ 0#32 then .error .valNotZero
        else .ok (.setCommand ver (val.setWidth 8))
      else .error .selector

/-- The decoding of the fields of a word (R71, R77). -/
def decodeFields (f : Fields) : Except Illegal Instr := decodeParts f.sel f.rsv f.wc f.dir f.ver f.off f.val

/-- `decode(cw)` of R77; an illegal word is rejected by name. -/
def decode (cw : CommandWord) : Except Illegal Instr := decodeFields (Fields.ofWord cw)

/-- The command word a table row's bits stand for: 64 bits, those above `nbits` zero. A command word crosses a port as one word
(R70); it is in no memory and has no byte order, and `nbits` is 64 for every row (R80). -/
def tableWord (nbits w : Nat) : CommandWord := BitVec.ofNat 64 (w % 2 ^ nbits)

/-- The instruction the decoder reads from a table row's bits. -/
def decodeTableWord (nbits w : Nat) : Option Instr :=
  match decode (tableWord nbits w) with
  | .ok i => some i
  | .error _ => none

/-- The fields of a command's word: the opcode of R76, the operands where the format of R72 has them (R73, R74, R75), 0 in
every field and bit that must be zero. -/
def encodeFields : Instr → Fields
  | .getU8 off => ⟨0x00#8, 0#8, off, 0#32⟩
  | .setU8 off val => ⟨0x01#8, 0#8, off, val.setWidth 32⟩
  | .getU16 off => ⟨0x02#8, 0#8, off, 0#32⟩
  | .setU16 off val => ⟨0x03#8, 0#8, off, val.setWidth 32⟩
  | .getU32 off => ⟨0x04#8, 0#8, off, 0#32⟩
  | .setU32 off val => ⟨0x05#8, 0#8, off, val⟩
  | .getVersion => ⟨0x10#8, 0#8, 0#16, 0#32⟩
  | .setVersion val => ⟨0x11#8, 0#8, 0#16, val.setWidth 32⟩
  | .getType => ⟨0x20#8, 0#8, 0#16, 0#32⟩
  | .setType val => ⟨0x21#8, 0#8, 0#16, val.setWidth 32⟩
  | .getLength => ⟨0x30#8, 0#8, 0#16, 0#32⟩
  | .setLength val => ⟨0x31#8, 0#8, 0#16, val.setWidth 32⟩
  | .getXid => ⟨0x40#8, 0#8, 0#16, 0#32⟩
  | .setXid val => ⟨0x41#8, 0#8, 0#16, val⟩
  | .getStatsType => ⟨0x50#8, 0#8, 0#16, 0#32⟩
  | .setStatsType val => ⟨0x51#8, 0#8, 0#16, val.setWidth 32⟩
  | .getExperimenterId => ⟨0x60#8, 0#8, 0#16, 0#32⟩
  | .setExperimenterId val => ⟨0x61#8, 0#8, 0#16, val⟩
  | .getExperimenterSubtype => ⟨0x70#8, 0#8, 0#16, 0#32⟩
  | .setExperimenterSubtype val => ⟨0x71#8, 0#8, 0#16, val⟩
  | .getCommand ver => ⟨0x80#8, ver, 0#16, 0#32⟩
  | .setCommand ver val => ⟨0x81#8, ver, 0#16, val.setWidth 32⟩

/-- The command word of a command (R70). -/
def encode (i : Instr) : CommandWord := (encodeFields i).toWord

/-- One row of spec/opcode_table.json (R84): a word is the row's command exactly when `cw AND mask = match`. The low eight bits
of `bits` are the row's opcode. -/
structure OpcodeRow where
  bits : CommandWord
  mask : CommandWord
  deriving DecidableEq, Repr

/-- The machine-readable opcode map (R84), row by row as spec/opcode_table.json has it. -/
def opcodeMap : List OpcodeRow :=
  [⟨0x0000000000000000, 0xFFFFFFFF0000FFFF⟩, ⟨0x0000000000000001, 0xFFFFFF000000FFFF⟩,
   ⟨0x0000000000000002, 0xFFFFFFFF0000FFFF⟩, ⟨0x0000000000000003, 0xFFFF00000000FFFF⟩,
   ⟨0x0000000000000004, 0xFFFFFFFF0000FFFF⟩, ⟨0x0000000000000005, 0x000000000000FFFF⟩] ++
  [⟨0x0000000000000010, 0xFFFFFFFFFFFFFFFF⟩, ⟨0x0000000000000011, 0xFFFFFF00FFFFFFFF⟩,
   ⟨0x0000000000000020, 0xFFFFFFFFFFFFFFFF⟩, ⟨0x0000000000000021, 0xFFFFFF00FFFFFFFF⟩,
   ⟨0x0000000000000030, 0xFFFFFFFFFFFFFFFF⟩, ⟨0x0000000000000031, 0xFFFF0000FFFFFFFF⟩,
   ⟨0x0000000000000040, 0xFFFFFFFFFFFFFFFF⟩, ⟨0x0000000000000041, 0x00000000FFFFFFFF⟩] ++
  [⟨0x0000000000000050, 0xFFFFFFFFFFFFFFFF⟩, ⟨0x0000000000000051, 0xFFFF0000FFFFFFFF⟩,
   ⟨0x0000000000000060, 0xFFFFFFFFFFFFFFFF⟩, ⟨0x0000000000000061, 0x00000000FFFFFFFF⟩,
   ⟨0x0000000000000070, 0xFFFFFFFFFFFFFFFF⟩, ⟨0x0000000000000071, 0x00000000FFFFFFFF⟩,
   ⟨0x0000000000000080, 0xFFFFFFFFFFFF00FF⟩, ⟨0x0000000000000081, 0xFFFFFF00FFFF00FF⟩]

end Sys2Proof
end

