-- ==== Sys2Proof/Machine/State.lean ====
section
/-!
DEFINITION. The state of the machine. The core itself has no architectural state (R20 to R24): what is here is the state of a
model of a system with one core (R32), the ports of R31, the command in flight of R30, and as plain data the parameters of the
run and of the instance (R6, R32): the inputs the outside world still gives, and the `Config`.
-/
namespace Sys2Proof.Machine

/-- The buffer memory `M` (R25): cells in strictly rising address order, none equal to what an unlisted address reads as. -/
abbrev Memory := List Host.Cell

/-- The two sideband operands (R83): the input ports `req_base` and `req_len`, driven by the caller and sampled with each
request. With `DEBUG_ASSERT = 0` there is no `req_len` port, and `len` is the `LEN` the model attaches to the buffer (R27). The widths
of the two are `PA_W` and `AW + 1`, arguments of the model, so both are natural numbers (log 4). -/
structure Sideband where
  base : Nat
  len : Nat
  deriving DecidableEq, Repr

/-- A request: the command word and its sidebands (R70, R83). -/
structure Request where
  word : CommandWord
  side : Sideband
  deriving DecidableEq, Repr

/-- A one-byte transaction on the memory port (R31, R88): `mem_we`, `mem_addr` and, for a write, `mem_wdata`. -/
inductive MemTxn where
  | read (addr : Nat)
  | write (addr : Nat) (data : Byte)
  deriving DecidableEq, Repr

/-- The command in flight (R30): the word and sidebands it came with, its decoding (none: illegal, R78), the transactions not
yet offered, the accepted reads not yet answered (oldest first, R88), and the bytes read so far, each at its address, oldest
first. -/
structure Flight where
  req : Request
  cmd : Option Instr
  todo : List MemTxn
  unanswered : List Nat
  got : List Host.Cell
  deriving DecidableEq, Repr

/-- One byte access by another agent: the caller, another core, a network interface (R14, R60, R182). -/
inductive ForeignAccess where
  | read (addr : Nat)
  | write (addr : Nat) (data : Byte)
  deriving DecidableEq, Repr

/-- What the world outside the core does next (R185). -/
inductive Input where
  /-- The caller offers a command; it is performed as ONE transition, from acceptance of the request to acceptance of the
  response, with no other agent acting in between (R46, R56, R60). -/
  | command (r : Request)
  /-- Port level: the request handshake (R87). -/
  | request (r : Request)
  /-- Port level: the memory accepts the offered transaction (R88). -/
  | memAccept
  /-- Port level: the memory answers the oldest unanswered read, of the command in flight or of one that reset abandoned (R31, R88;
  log 19). -/
  | memAnswer
  /-- Port level: the caller accepts the offered response (R87). -/
  | respAccept
  /-- `rst_n` falls (R200, R201). -/
  | resetFalls
  /-- `rst_n` rises (R200). -/
  | resetRises
  /-- Another agent reads or writes one byte of memory (R60). -/
  | foreign (a : ForeignAccess)
  deriving DecidableEq, Repr

/-- Why the machine stops. -/
inductive Fault where
  /-- `OutOfContract(cmd, off, w, LEN)` of R171 and R172: the buffer is too short for the command. Raised by every command's
  meaning and by the request handshake. Safe: the hardware may go on where the model stops. -/
  | outOfContract (cmd : Instr) (off w len : Nat)
  /-- A byte of the access would lie at an address past `2^PA_W - 1`, which memory does not have (R48): the caller named a buffer
  that runs past the top of the address space. Raised by every command's meaning and by the request handshake. Safe (log 5). -/
  | noSuchAddress (cmd : Instr) (addr : Nat)
  /-- `Race(cmd)` of R171: another agent touched the buffer of the command in flight (R60). Raised by the input `foreign`. Safe. -/
  | race (cmd : Instr)
  /-- Another agent is said to access an address past `2^PA_W - 1`, which memory does not have (R25). Raised by the input `foreign`.
  Safe (log 16). -/
  | noSuchByte (addr : Nat)
  /-- The run has a recorded fault, so it has no further meaning (R171). Raised by `step` on such a state. Safe. -/
  | runFaulted
  deriving DecidableEq, Repr

/-- Why a step has no meaning. -/
inductive Refusal where
  /-- The command has no meaning yet. Raised by an arm of `exec`; safe. No arm raises it now. -/
  | notModelled (mnemonic : String)
  /-- The memory answers although no read is unanswered, of the command in flight or of an abandoned one: R88 has it answer each
  accepted read once. Raised by the input `memAnswer`; safe (log 15). -/
  | unaskedAnswer
  deriving DecidableEq, Repr

/-- The state. It is plain data. -/
structure State where
  /-- The instance's parameters (R6, R23): constants, which no step changes. -/
  cfg : Config
  /-- The buffer memory `M` (R25). -/
  mem : Memory
  /-- The input ports `req_base` and `req_len` as the caller last drove them (R31, R83). -/
  sideband : Sideband
  /-- The input port `rst_n` (R31, R200): false is 0. -/
  rstN : Bool
  /-- The command in flight (R30). -/
  flight : Option Flight
  /-- The reads that were accepted and not yet answered when reset abandoned their command, oldest first: R88 has the memory answer
  them still (log 19). -/
  abandoned : List Nat
  /-- The memory port's outputs (R31, R88): none is `mem_valid = 0`. -/
  memPort : Option MemTxn
  /-- The response port's outputs (R31, R87): none is `resp_valid = 0`, else `resp_word`. -/
  respPort : Option ResponseWord
  /-- The responses given so far, in order (R32). -/
  responses : List ResponseWord
  /-- The sequence index `k` (R21). -/
  seq : Nat
  /-- The fault record (R32, R171). -/
  faults : List Fault
  /-- What the world outside does next, first the next (R32, R185; log 7). -/
  inputs : List Input
  /-- The MODEL's own counter: how many free values have been drawn (log 9). -/
  fresh : Nat
  deriving DecidableEq, Repr

/-- What a step or a meaning answers. -/
abbrev Result := Host.Outcome State Fault Refusal

/-- The next state of an outcome, if it is one. -/
def nextOf (r : Result) : Option State :=
  match r with
  | .next t => some t
  | .fault _ => none
  | .refused _ => none

/-- The fault of an outcome, if it is one. -/
def faultOf (r : Result) : Option Fault :=
  match r with
  | .next _ => none
  | .fault f => some f
  | .refused _ => none

/-- The machine right after reset (R33, R200): `rst_n` has risen, no command in flight, no port valid, `k = 0`, empty response list,
empty fault record. The spec gives no contents of memory (log 1) and no sidebands (log 6), names no command to run (log 7), and does
not say that no answer is owed from before (log 19); the instance is that of R6 (log 2, log 3, log 4). -/
def State.reset : State :=
  { cfg := Config.default
    mem := []
    sideband := { base := 0, len := 0 }
    rstN := true
    flight := none
    abandoned := []
    memPort := none
    respPort := none
    responses := []
    seq := 0
    faults := []
    inputs := []
    fresh := 0 }

end Sys2Proof.Machine
end

