-- ==== Sys2Proof/Machine/Flags.lean ====
section
/-!
DEFINITION. The core has no flags and no condition codes (R22): no command writes one. The one status it has is the 2-bit
status of a command's own response word (R85, R170, R174), which nothing later reads (R178).
-/
namespace Sys2Proof.Machine

/-- The statuses of R174. Status 3 is never produced and is no constructor. -/
inductive Status where
  | ok
  | illegal
  | ooc
  deriving DecidableEq, Repr

/-- The code of a status (R85, R174). -/
def Status.code : Status → BitVec 2
  | .ok => 0
  | .illegal => 1
  | .ooc => 2

/-- The response word `{status[1:0], val[31:0]}` (R85). -/
def responseWord (st : Status) (v : Value) : ResponseWord := st.code ++ v

/-- The field `status` of a response word, bits 33:32 (R85). -/
def statusField (rw : ResponseWord) : BitVec 2 := rw.extractLsb' 32 2

/-- The field `val` of a response word, bits 31:0 (R85). -/
def valField (rw : ResponseWord) : Value := rw.extractLsb' 0 32

end Sys2Proof.Machine
end

