-- ==== Sys2Proof/Machine/Ops.lean ====
section
/-!
DEFINITION. The named operations over memory and state that every meaning is built from: reading and writing bytes (R11), the
address of an access (R48), giving a response (R85), performing an access as one transition (R46, R176), answering an illegal
word (R173). The core takes no exceptions (R170, R177): there is no other entry and no return.
-/
namespace Sys2Proof.Machine

/-- What an address reads as that the list does not hold (log 1). -/
def Memory.unlisted : Byte := 0

/-- `M[a]` (R25). -/
def Memory.read : Memory → Nat → Byte
  | [], _ => Memory.unlisted
  | c :: rest, a => if a = c.1 then c.2 else Memory.read rest a

/-- The memory without the entries for `a`. -/
def Memory.erase (m : Memory) (a : Nat) : Memory := m.filter (fun c => c.1 != a)

/-- A cell put at its place in a list sorted by address. -/
def Memory.insert : Memory → Host.Cell → Memory
  | [], c => [c]
  | d :: rest, c => if c.1 < d.1 then c :: d :: rest else d :: Memory.insert rest c

/-- `M[a] <- b` (R11). Writing what an unlisted address reads as removes the entry, so that equal memories are equal lists. -/
def Memory.write (m : Memory) (a : Nat) (b : Byte) : Memory :=
  if b = Memory.unlisted then m.erase a else (m.erase a).insert (a, b)

/-- The canonical form: addresses strictly rising, and no entry equal to what an unlisted address reads as. -/
def Memory.wf (m : Memory) : Bool :=
  decide ((m.map Prod.fst).Pairwise (· < ·)) && m.all (fun c => c.2 != Memory.unlisted)

/-- Every listed address exists: it is below `2^PA_W` (R25). -/
def Memory.inSpace (m : Memory) (c : Config) : Bool := m.all (fun d => decide (d.1 < c.addressSpace))

/-- `MemRead(a, n)` of R11: `n` bytes, lowest address first. -/
def memRead (m : Memory) : Nat → Nat → List Byte
  | _, 0 => []
  | a, n + 1 => m.read a :: memRead m (a + 1) n

/-- `MemWrite(a, n, B)` of R11. -/
def memWrite (m : Memory) : Nat → List Byte → Memory
  | _, [] => m
  | a, b :: bs => memWrite (m.write a b) (a + 1) bs

/-- `LEN`: a `req_len` above `2^AW`, 65536 for the value of R6, is treated as `2^AW` (R83). -/
def Sideband.bufLen (b : Sideband) (c : Config) : Nat := min c.maxLen b.len

/-- The memory address of offset `off` of the buffer, in natural numbers: it does not wrap (R48). -/
def Sideband.address (b : Sideband) (off : Nat) : Nat := b.base + off

/-- The port `req_ready` (R31, R33, R87): 1 when `rst_n` is 1 and no command is in flight. -/
def State.reqReady (s : State) : Bool := s.rstN && s.flight.isNone

/-- The caller drives the sidebands of its request (R83). -/
def State.withSideband (s : State) (b : Sideband) : State := { s with sideband := b }

/-- `respond(status, val)` of R11, seen after the caller has accepted the response: one more response word (R32, R85), and the
sequence index goes to `k + 1` whatever the status (R21, R156). -/
def State.answered (s : State) (st : Status) (v : Value) : State :=
  { s with responses := s.responses ++ [responseWord st v], seq := s.seq + 1 }

/-- The value a get answers after reading these bytes at its location (R85, R101 to R103, R152). -/
def loadedValue (valueBytes : Nat) (bytes : List Byte) : Value := narrow valueBytes (fromBe bytes)

/-- The value of a completed command: a get's value, 0 for a set (R85). -/
def completedValue (x : Access) (s : State) : Value :=
  match x.action with
  | .load n => loadedValue n (memRead s.mem (s.sideband.address x.loc.off) x.loc.width)
  | .store _ => 0

/-- The memory after a completed command: a set's bytes written, unchanged by a get (R47). -/
def completedMem (x : Access) (s : State) : Memory :=
  match x.action with
  | .load _ => s.mem
  | .store bytes => memWrite s.mem (s.sideband.address x.loc.off) bytes

/-- BOP performing an access that is in contract: all its byte transactions, then the response `{OK, value}` (R46, R171). -/
def complete (x : Access) (s : State) : State :=
  { s with mem := completedMem x s }.answered .ok (completedValue x s)

/-- What stands in the way of an access, tested once and before any byte moves (R176): the contract (R50, R51, R172), then
whether all its bytes have an address (R48; log 5). -/
def blocked (c : Config) (i : Instr) (x : Access) (b : Sideband) : Option Fault :=
  if b.bufLen c < x.minLen then some (.outOfContract i x.loc.off x.loc.width (b.bufLen c))
  else if c.addressSpace < b.address x.loc.off + x.loc.width then
    some (.noSuchAddress i (b.address x.loc.off + x.loc.width - 1))
  else none

/-- A command as one transition (R46, R171): the fault that blocks its access, or the access. -/
def perform (i : Instr) (x : Access) (s : State) : Result :=
  match blocked s.cfg i x s.sideband with
  | some f => .fault f
  | none => .next (complete x s)

/-- The verdict on an illegal word (R78, R173): no memory access, `respond(1, 0)`. -/
def answerIllegal (s : State) : State := s.answered .illegal 0

end Sys2Proof.Machine
end

