-- ==== Sys2Proof/Machine/FlowMod.lean ====
section
/-!
DEFINITION. The meanings of the two flow-mod command accessors, FMR (R150 to R153). The version is the operand and never the
buffer's version byte (R157).
-/
namespace Sys2Proof.Machine

/-- `get_command ver`: read the flow-mod command code, narrowed to 8 bits (R152, R154). -/
def execGetCommand (ver : VersionTag) (s : State) : Result := perform (.getCommand ver) (commandGet s.cfg ver) s

/-- `set_command ver, val`: write the flow-mod command code, widened to the field (R153). -/
def execSetCommand (ver : VersionTag) (val : Byte) (s : State) : Result := perform (.setCommand ver val) (commandSet s.cfg ver val) s

end Sys2Proof.Machine
end

