-- ==== Sys2Proof/Machine/HeaderFields.lean ====
section
/-!
DEFINITION. The meanings of the fourteen header field accessors, HFX (R121 to R136): the primitive of the field's width at the
field's offset (R120), under the field's contract `LEN >= MINLEN` (R51). No accessor looks at the message type (R54, R122).
-/
namespace Sys2Proof.Machine

/-- `get_version` (R123). -/
def execGetVersion (s : State) : Result := perform .getVersion (fieldGet .version) s

/-- `set_version val` (R124). -/
def execSetVersion (val : Byte) (s : State) : Result := perform (.setVersion val) (fieldSet .version val.toNat) s

/-- `get_type` (R125). -/
def execGetType (s : State) : Result := perform .getType (fieldGet .type) s

/-- `set_type val` (R126). -/
def execSetType (val : Byte) (s : State) : Result := perform (.setType val) (fieldSet .type val.toNat) s

/-- `get_length` (R127). -/
def execGetLength (s : State) : Result := perform .getLength (fieldGet .length) s

/-- `set_length val` (R128). -/
def execSetLength (val : Half) (s : State) : Result := perform (.setLength val) (fieldSet .length val.toNat) s

/-- `get_xid` (R129). -/
def execGetXid (s : State) : Result := perform .getXid (fieldGet .xid) s

/-- `set_xid val` (R130). -/
def execSetXid (val : Value) (s : State) : Result := perform (.setXid val) (fieldSet .xid val.toNat) s

/-- `get_stats_type` (R131). -/
def execGetStatsType (s : State) : Result := perform .getStatsType (fieldGet .statsType) s

/-- `set_stats_type val` (R132). -/
def execSetStatsType (val : Half) (s : State) : Result := perform (.setStatsType val) (fieldSet .statsType val.toNat) s

/-- `get_experimenter_id` (R133). -/
def execGetExperimenterId (s : State) : Result := perform .getExperimenterId (fieldGet .experimenterId) s

/-- `set_experimenter_id val` (R134). -/
def execSetExperimenterId (val : Value) (s : State) : Result := perform (.setExperimenterId val) (fieldSet .experimenterId val.toNat) s

/-- `get_experimenter_subtype` (R135). -/
def execGetExperimenterSubtype (s : State) : Result := perform .getExperimenterSubtype (fieldGet .experimenterSubtype) s

/-- `set_experimenter_subtype val` (R136). -/
def execSetExperimenterSubtype (val : Value) (s : State) : Result := perform (.setExperimenterSubtype val) (fieldSet .experimenterSubtype val.toNat) s

end Sys2Proof.Machine
end

