-- ==== Sys2Proof/Machine/Primitives.lean ====
section
/-!
DEFINITION. The meanings of the six byte-order primitives, BOP (R100 to R106): the access of the command's width at the offset
operand, under the contract `off + w <= LEN` (R50).
-/
namespace Sys2Proof.Machine

/-- `get_u8 off`: read one byte (R101). -/
def execGetU8 (off : Offset) (s : State) : Result := perform (.getU8 off) (primGet 1 off) s

/-- `set_u8 off, val`: write one byte (R104). -/
def execSetU8 (off : Offset) (val : Byte) (s : State) : Result := perform (.setU8 off val) (primSet 1 off val.toNat) s

/-- `get_u16 off`: read two bytes as a big-endian u16 (R102). -/
def execGetU16 (off : Offset) (s : State) : Result := perform (.getU16 off) (primGet 2 off) s

/-- `set_u16 off, val`: write a u16 as two bytes, big-endian (R105). -/
def execSetU16 (off : Offset) (val : Half) (s : State) : Result := perform (.setU16 off val) (primSet 2 off val.toNat) s

/-- `get_u32 off`: read four bytes as a big-endian u32 (R103). -/
def execGetU32 (off : Offset) (s : State) : Result := perform (.getU32 off) (primGet 4 off) s

/-- `set_u32 off, val`: write a u32 as four bytes, big-endian (R106). -/
def execSetU32 (off : Offset) (val : Value) (s : State) : Result := perform (.setU32 off val) (primSet 4 off val.toNat) s

end Sys2Proof.Machine
end

