-- ==== Sys2Proof/Machine/Dispatch.lean ====
section
/-!
DEFINITION. One arm per command, in the order of spec/opcode_table.json.
-/
namespace Sys2Proof.Machine

def exec (i : Instr) (s : State) : Host.Outcome State Fault Refusal :=
  match i with
  | .getU8 off => Sys2Proof.Machine.execGetU8 off s
  | .setU8 off val => Sys2Proof.Machine.execSetU8 off val s
  | .getU16 off => Sys2Proof.Machine.execGetU16 off s
  | .setU16 off val => Sys2Proof.Machine.execSetU16 off val s
  | .getU32 off => Sys2Proof.Machine.execGetU32 off s
  | .setU32 off val => Sys2Proof.Machine.execSetU32 off val s
  | .getVersion => Sys2Proof.Machine.execGetVersion s
  | .setVersion val => Sys2Proof.Machine.execSetVersion val s
  | .getType => Sys2Proof.Machine.execGetType s
  | .setType val => Sys2Proof.Machine.execSetType val s
  | .getLength => Sys2Proof.Machine.execGetLength s
  | .setLength val => Sys2Proof.Machine.execSetLength val s
  | .getXid => Sys2Proof.Machine.execGetXid s
  | .setXid val => Sys2Proof.Machine.execSetXid val s
  | .getStatsType => Sys2Proof.Machine.execGetStatsType s
  | .setStatsType val => Sys2Proof.Machine.execSetStatsType val s
  | .getExperimenterId => Sys2Proof.Machine.execGetExperimenterId s
  | .setExperimenterId val => Sys2Proof.Machine.execSetExperimenterId val s
  | .getExperimenterSubtype => Sys2Proof.Machine.execGetExperimenterSubtype s
  | .setExperimenterSubtype val => Sys2Proof.Machine.execSetExperimenterSubtype val s
  | .getCommand ver => Sys2Proof.Machine.execGetCommand ver s
  | .setCommand ver val => Sys2Proof.Machine.execSetCommand ver val s

end Sys2Proof.Machine
end

