-- ==== Sys2Proof/Machine/Ports.lean ====
section
/-!
DEFINITION. The core at its ports (R30, R31, R87, R88, R200, R201): a command as the handshakes and byte transactions it is made
of. Each definition is what ONE handshake or one edge of `rst_n` does; clock edges with no handshake change nothing (log 11).
`Sys2Proof.Machine.perform` is the same command as one transition; R46 says that a model may choose, this one has both.
-/
namespace Sys2Proof.Machine

/-- The reads of a get: one per offset, each once (R46, R47). -/
def readTxns : Nat → Nat → List MemTxn
  | _, 0 => []
  | a, n + 1 => .read a :: readTxns (a + 1) n

/-- The writes of a set: one per byte, each once (R46, R47). -/
def writeTxns : Nat → List Byte → List MemTxn
  | _, [] => []
  | a, b :: bs => .write a b :: writeTxns (a + 1) bs

/-- The byte transactions of an access on a buffer (R46). -/
def transactions (x : Access) (b : Sideband) : List MemTxn :=
  match x.action with
  | .load _ => readTxns (b.address x.loc.off) x.loc.width
  | .store bytes => writeTxns (b.address x.loc.off) bytes

/-- The response of a completed access, from the bytes it has read (R85). -/
def flightResponse (x : Access) (b : Sideband) (got : List Host.Cell) : ResponseWord :=
  match x.action with
  | .load n => responseWord .ok (loadedValue n (memRead got (b.address x.loc.off) x.loc.width))
  | .store _ => responseWord .ok 0

/-- The response of the command in flight when its last transaction is done; `illegal` for a word that is no command (R78). -/
def responseOf (c : Config) (f : Flight) : ResponseWord :=
  match f.cmd with
  | some i => flightResponse (accessOf c i) f.req.side f.got
  | none => responseWord .illegal 0

/-- With no transaction on the port: offer one of those that remain, in an order the spec leaves open (R46; log 9); if none
remains and no read is unanswered, offer the response, and not before (R57). -/
def offerNext (f : Flight) (s : State) : State :=
  match f.todo[Config.nextByte s.fresh % f.todo.length]? with
  | some t =>
    { s with
      flight := some { f with todo := f.todo.eraseIdx (Config.nextByte s.fresh % f.todo.length) }
      memPort := some t
      fresh := s.fresh + 1 }
  | none =>
    if f.unanswered = [] then { s with flight := some f, respPort := some (responseOf s.cfg f) }
    else { s with flight := some f }

/-- The flight goes on: an offered transaction is held until it is accepted (R88). -/
def goOn (f : Flight) (s : State) : State :=
  if s.memPort.isSome then { s with flight := some f } else offerNext f s

/-- The flight of a request just accepted (R30). -/
def newFlight (r : Request) (cmd : Option Instr) (todo : List MemTxn) : Flight :=
  { req := r, cmd := cmd, todo := todo, unanswered := [], got := [] }

/-- The request handshake (R87): the core decodes the word (R176), answers an illegal one with status 1 (R173), tests the contract
once (R172, R176), and else starts the byte transactions. With `DEBUG_ASSERT = 1` an out-of-contract command gets the response
`{2, 0}` on the port and no transaction, and the fault is recorded at once (R171, R172; log 3): the run goes no further, so nothing
that comes later, the acceptance of that response or a reset, can lose it. -/
def acceptRequest (r : Request) (s : State) : Result :=
  match decode r.word with
  | .error _ => .next (offerNext (newFlight r none []) (s.withSideband r.side))
  | .ok i =>
    match blocked s.cfg i (accessOf s.cfg i) r.side with
    | some (.outOfContract j off w len) =>
      if s.cfg.debugAssert then
        .next { s.withSideband r.side with
          flight := some (newFlight r (some i) [])
          respPort := some (responseWord .ooc 0)
          faults := s.faults ++ [.outOfContract j off w len] }
      else .fault (.outOfContract j off w len)
    | some f => .fault f
    | none =>
      .next (offerNext (newFlight r (some i) (transactions (accessOf s.cfg i) r.side)) (s.withSideband r.side))

/-- A transaction handshake on the memory port (R88): a write is performed when it is accepted, a read waits for its answer. With
`mem_valid = 0` there is no handshake. -/
def acceptMem (s : State) : State :=
  match s.flight, s.memPort with
  | some f, some (.read a) =>
    goOn { f with unanswered := f.unanswered ++ [a] } { s with memPort := none }
  | some f, some (.write a b) => goOn f { s with memPort := none, mem := s.mem.write a b }
  | _, _ => s

/-- The memory answers the oldest unanswered read (R31, R88). If that read is of a command that reset abandoned, nobody waits for its
byte and it is dropped (log 19); else the command in flight takes the byte that memory holds (log 18). -/
def answerMem (s : State) : Result :=
  match s.abandoned with
  | _ :: rest => .next { s with abandoned := rest }
  | [] =>
    match s.flight with
    | some f =>
      match f.unanswered with
      | a :: rest => .next (goOn { f with unanswered := rest, got := f.got ++ [(a, s.mem.read a)] } s)
      | [] => .refused .unaskedAnswer
    | none => .refused .unaskedAnswer

/-- The response handshake (R87): the command is complete, `k` goes to `k + 1` (R21), and the core is idle again. With
`resp_valid = 0` there is no handshake (log 15). -/
def acceptResponse (s : State) : State :=
  match s.flight, s.respPort with
  | some _, some w => { s with flight := none, respPort := none, responses := s.responses ++ [w], seq := s.seq + 1 }
  | _, _ => s

/-- The accepted reads of the command in flight that are not yet answered (R30, R88). -/
def State.unanswered (s : State) : List Nat :=
  match s.flight with
  | some f => f.unanswered
  | none => []

/-- `rst_n` falls (R200, R201): a command in flight is abandoned without a response, and no port is valid; memory keeps what it
holds, so the bytes a set has already written stay written. The memory still owes the answers to the reads it has accepted (R88;
log 19). The model's index and response list go to their reset values (R33; log 12). -/
def resetFall (s : State) : State :=
  { s with
    rstN := false
    flight := none
    abandoned := s.abandoned ++ s.unanswered
    memPort := none
    respPort := none
    responses := []
    seq := 0 }

/-- `rst_n` rises: the core is idle and ready (R200). -/
def resetRise (s : State) : State := { s with rstN := true }

/-- The address lies in the buffer (R25). -/
def Sideband.holds (b : Sideband) (c : Config) (a : Nat) : Bool :=
  decide (b.base ≤ a) && decide (a < b.base + b.bufLen c)

/-- Whether another agent's access breaks the exclusivity of R60: a read or a write of a byte of the buffer of a set in flight, a
write of a byte of the buffer of a get in flight. An illegal word in flight has no buffer (log 16). -/
def races (c : Config) (f : Flight) (a : ForeignAccess) : Option Instr :=
  match f.cmd with
  | none => none
  | some i =>
    match a with
    | .read addr => if f.req.side.holds c addr && isSet c i then some i else none
    | .write addr _ => if f.req.side.holds c addr then some i else none

/-- The command in flight that another agent's access races with, if there is one (R60). -/
def State.racedBy (s : State) (a : ForeignAccess) : Option Instr :=
  match s.flight with
  | none => none
  | some f => races s.cfg f a

/-- The address of another agent's access. -/
def ForeignAccess.addr : ForeignAccess → Nat
  | .read a => a
  | .write a _ => a

/-- The effect of another agent's access where it does not race (R60): a write lands in memory, a read changes nothing. -/
def foreignEffect (a : ForeignAccess) (s : State) : State :=
  match a with
  | .read _ => s
  | .write addr b => { s with mem := s.mem.write addr b }

/-- Another agent accesses memory: a fault if memory has no such address (R25; log 16), the fault `Race` while a command is in flight
that the access must not meet (R60, R171, R176), else the access. -/
def foreignAccess (a : ForeignAccess) (s : State) : Result :=
  if s.cfg.addressSpace ≤ a.addr then .fault (.noSuchByte a.addr)
  else
    match s.racedBy a with
    | some i => .fault (.race i)
    | none => .next (foreignEffect a s)

end Sys2Proof.Machine
end

