-- ==== Sys2Proof/Machine/Inputs.lean ====
section
/-!
DEFINITION. What one input does to the machine (R185). Commands are not fetched: each is handed to the core on its request port
(R21, R59).
-/
namespace Sys2Proof.Machine

/-- A command as one transition (R46): its sidebands are sampled (R83), its word is decoded (R77), and the command is executed, or
the illegal word answered (R173, R176). -/
def issue (r : Request) (s : State) : Result :=
  match decode r.word with
  | .ok i => exec i (s.withSideband r.side)
  | .error _ => .next (answerIllegal (s.withSideband r.side))

/-- One input, already taken off the list. -/
def takeInput (x : Input) (s : State) : Result :=
  match x with
  | .command r => issue r s
  | .request r => acceptRequest r s
  | .memAccept => .next (acceptMem s)
  | .memAnswer => answerMem s
  | .respAccept => .next (acceptResponse s)
  | .resetFalls => .next (resetFall s)
  | .resetRises => .next (resetRise s)
  | .foreign a => foreignAccess a s

/-- The input is an offer on the request port, which the caller holds until `req_ready = 1` (R87). -/
def Input.waitsForReady : Input → Bool
  | .command _ | .request _ => true
  | .memAccept | .memAnswer | .respAccept | .resetFalls | .resetRises | .foreign _ => false

/-- The next thing that happens. With no input nothing does: the core has no background tasks (R14). An offered request waits while
the core is not ready (R87; log 14). -/
def nextEvent (s : State) : Result :=
  match s.inputs with
  | [] => .next s
  | x :: rest =>
    if x.waitsForReady && !s.reqReady then .next s
    else takeInput x { s with inputs := rest }

/-- The request that `State.withFetchWord` places: the word, with a buffer of the largest length at address 0 (log 7). -/
def placedRequest (c : Config) (nbits w : Nat) : Request :=
  { word := tableWord nbits w, side := { base := 0, len := c.maxLen } }

end Sys2Proof.Machine
end

