-- ==== Sys2Proof/Machine/Step.lean ====
section
/-!
DEFINITION. One step: the next input takes effect.
-/
namespace Sys2Proof.Machine

/-- One step. After a recorded fault the run has no further meaning (R171). -/
def step (s : State) : Host.Outcome State Fault Refusal :=
  match s.faults with
  | _ :: _ => .fault .runFaulted
  | [] => nextEvent s

/-- The state whose next step runs the command word `w`. The core fetches nothing (R21): the caller hands it its commands, so the
word is put first in the list of inputs, and the core is made able to take it, idle, out of reset, with no fault recorded
(log 7). -/
def State.withFetchWord (s : State) (nbits w : Nat) : State :=
  { s with
    inputs := .command (placedRequest s.cfg nbits w) :: s.inputs
    rstN := true
    flight := none
    memPort := none
    respPort := none
    faults := [] }

end Sys2Proof.Machine
end

