-- ==== Sys2Proof/Machine/Run.lean ====
section
/-!
DEFINITION. Runs (R32, R211): the fault record, and what a run of a command list is and gives.
-/
namespace Sys2Proof.Machine

/-- One step of a run: a next state is taken; a fault is added to the fault record, from which nothing is ever removed (R32), and
the rest of the state is left as it was, without meaning (R171). -/
def advance (s : State) : State :=
  match step s with
  | .next t => t
  | .fault f => { s with faults := s.faults ++ [f] }
  | .refused _ => s

/-- `n` steps of a run. -/
def runFor : Nat → State → State
  | 0, s => s
  | n + 1, s => runFor n (advance s)

/-- The start of a run of a command list on an instance and a memory: the reset state, `k = 0`, empty response list and fault
record (R211); the contents of memory are a parameter of the run (R28, R32). -/
def launch (c : Config) (m : Memory) (cmds : List Request) : State :=
  { State.reset with cfg := c, mem := m, inputs := cmds.map .command }

/-- The run of a list of `n` commands has ended (R211): `k = n`, no command is in flight, no fault is recorded. After a reset `k`
counts from the reset (log 12), so a run that reset cut has not ended unless `n` commands have completed since (log 20). -/
def State.ended (s : State) (n : Nat) : Bool := s.seq == n && s.flight.isNone && s.faults.isEmpty

/-- The result of a run of `n` commands: the response list and the memory (R211); none while the run has not ended, or if it
faulted. -/
def State.result (s : State) (n : Nat) : Option (List ResponseWord × Memory) :=
  if s.ended n then some (s.responses, s.mem) else none

end Sys2Proof.Machine
end

