-- ==== Sys2Proof/Safety.lean ====
section
/-!
DEFINITION. What counts as a safe run, in the terms the statements use: the contract of a command, the state between commands, and
the invariant that every step keeps.
-/
namespace Sys2Proof.Machine

/-- A buffer of `LEN` bytes whose pointer is `base` fits in the address space: `base + LEN <= 2^PA_W` (R48, R203). -/
abbrev Sideband.fits (b : Sideband) (c : Config) : Prop := b.base + b.bufLen c ≤ c.addressSpace

/-- The least `LEN` with which a command is in contract: `off + w` for a primitive (R50), `MINLEN` for an accessor (R51, R52). -/
def leastLen (c : Config) : Instr → Nat
  | .getU8 off | .setU8 off _ => off.toNat + 1
  | .getU16 off | .setU16 off _ => off.toNat + 2
  | .getU32 off | .setU32 off _ => off.toNat + 4
  | .getVersion | .setVersion _ | .getType | .setType _ | .getLength | .setLength _ | .getXid | .setXid _ => 8
  | .getStatsType | .setStatsType _ => 10
  | .getExperimenterId | .setExperimenterId _ | .getExperimenterSubtype | .setExperimenterSubtype _ => 16
  | .getCommand ver | .setCommand ver _ => if ver = c.verOneZero then 58 else 26

/-- The command meets its contract on a buffer that fits in the address space (R50, R51, R48): what the caller owes (R203,
R204). -/
abbrev InContract (c : Config) (i : Instr) (b : Sideband) : Prop := leastLen c i ≤ b.bufLen c ∧ b.fits c

/-- `BUF[i]`, the byte at offset `i` of the buffer the caller names (R9, R25). -/
def State.buf (s : State) (i : Nat) : Byte := s.mem.read (s.sideband.address i)

/-- `LEN` of the buffer the caller names (R27). -/
abbrev State.bufLen (s : State) : Nat := s.sideband.bufLen s.cfg

/-- A command behaves as the get of a byte range: on a buffer shorter than `least` it is the fault `OutOfContract` (R172), else it
answers `OK` with the value, and changes nothing but the response list and the index (R47). -/
def ReadsAs (i : Instr) (s : State) (off w least value : Nat) : Prop :=
  (s.bufLen < least → exec i s = .fault (.outOfContract i off w s.bufLen)) ∧
  (least ≤ s.bufLen → s.sideband.fits s.cfg →
    exec i s = .next (s.answered .ok (BitVec.ofNat 32 value)))

/-- A command behaves as the set of a byte range: on a buffer shorter than `least` it is the fault `OutOfContract` (R172), else it
answers `OK` with value 0, stores the bytes in offset order, leaves every other byte of memory as it was, and changes nothing else
but the response list and the index (R47). -/
def WritesAs (i : Instr) (s : State) (off w least : Nat) (bytes : List Byte) : Prop :=
  (s.bufLen < least → exec i s = .fault (.outOfContract i off w s.bufLen)) ∧
  (least ≤ s.bufLen → s.sideband.fits s.cfg →
    ∃ m, exec i s = .next ({ s with mem := m }.answered .ok 0) ∧ bytes.length = w ∧
      (∀ k b, bytes[k]? = some b → m.read (s.sideband.address (off + k)) = b) ∧
      ∀ a, a < s.sideband.address off ∨ s.sideband.address off + w ≤ a → m.read a = s.mem.read a)

/-- The two states hold the same buffer pointer and length, and the same bytes at `w` offsets from `off`. -/
def SameRange (s u : State) (off w : Nat) : Prop :=
  u.cfg = s.cfg ∧ u.sideband = s.sideband ∧ ∀ k, k < w → u.buf (off + k) = s.buf (off + k)

/-- The address of a transaction on the memory port (`mem_addr`, R31). -/
def MemTxn.addr : MemTxn → Nat
  | .read a => a
  | .write a _ => a

/-- The transaction is a write (`mem_we`, R31). -/
def MemTxn.isWrite : MemTxn → Bool
  | .read _ => false
  | .write _ _ => true

/-- Between commands (R30, R200): out of reset, no command in flight, no port valid, no fault recorded. -/
abbrev State.Idle (s : State) : Prop :=
  s.rstN = true ∧ s.flight = none ∧ s.memPort = none ∧ s.respPort = none ∧ s.faults = []

/-- Memory is in its canonical form, and lists only addresses that exist. -/
abbrev State.MemoryOk (s : State) : Prop := s.mem.wf = true ∧ s.mem.inSpace s.cfg = true

/-- A response word that a run may hold (R174): status `OK`, or status `ILLEGAL` with value 0. -/
abbrev goodResponse (rw : ResponseWord) : Prop := statusField rw = 0 ∨ (statusField rw = 1 ∧ valField rw = 0)

/-- The index counts the responses given (R21, R32), and each is one the run may hold (R174, R85). -/
abbrev State.LedgerOk (s : State) : Prop := s.responses.length = s.seq ∧ ∀ rw ∈ s.responses, goodResponse rw

/-- The byte transactions a flight has still to make: the offered one and those not yet offered. -/
def State.pending (s : State) (f : Flight) : List MemTxn := s.memPort.toList ++ f.todo

/-- The addresses of the transaction on the memory port and of those not yet offered exist (R25, R48). -/
def State.AddressesExist (s : State) : Prop :=
  (∀ t, s.memPort = some t → t.addr < s.cfg.addressSpace) ∧
  ∀ f, s.flight = some f → ∀ t ∈ f.todo, t.addr < s.cfg.addressSpace

/-- Every address the command of a flight has still to touch or has read: pending, unanswered, answered. -/
def State.touched (s : State) (f : Flight) : List Nat :=
  (s.pending f).map MemTxn.addr ++ f.unanswered ++ f.got.map Prod.fst

/-- A byte belongs to the command of a flight: its address lies in the range of the command's access, it exists, and it is written
exactly if the command is a set (R46, R47, R48). -/
def Flight.Owns (c : Config) (f : Flight) (isWrite : Bool) (a : Nat) : Prop :=
  ∃ i, f.cmd = some i ∧ isWrite = isSet c i ∧
    f.req.side.address (accessOf c i).loc.off ≤ a ∧
    a < f.req.side.address (accessOf c i).loc.off + (accessOf c i).loc.width ∧
    f.req.side.address (accessOf c i).loc.off + (accessOf c i).loc.width ≤ c.addressSpace

/-- What the ports hold while a command is in flight and no fault is recorded: it was decoded from its word (R176); its pending
transactions are its own, and so are the reads that wait for their answer and those that have it (R46, R47); no two of all these are
for the same byte, and of a get they are as many as its range has bytes, so a get reads each byte of its range exactly once (R46); a
response is offered only when nothing is pending (R57), and it is the command's own; and if none is offered, a transaction is offered
or a read is unanswered: the core waits for nothing else (R110). The clause `offered`, that a transaction is on the port while one
remains, is the model's choice (log 17), and so is that a response is offered as soon as nothing remains. -/
structure State.FlightOk (s : State) (f : Flight) : Prop where
  outOfReset : s.rstN = true
  decoded : f.cmd = (decode f.req.word).toOption
  sidebandHeld : f.req.side = s.sideband
  owned : ∀ t ∈ s.pending f, f.Owns s.cfg t.isWrite t.addr
  readsOwned : ∀ a ∈ f.unanswered ++ f.got.map Prod.fst, f.Owns s.cfg false a
  onceEach : (s.touched f).Nodup
  wholeRange : ∀ i, f.cmd = some i → isSet s.cfg i = false → (s.touched f).length = (accessOf s.cfg i).loc.width
  offered : s.memPort = none → f.todo = []
  responds : ∀ rw, s.respPort = some rw → s.memPort = none ∧ f.unanswered = [] ∧ rw = responseOf s.cfg f
  waitsOnly : s.respPort = none → s.memPort ≠ none ∨ f.unanswered ≠ []

/-- What the ports hold when the fault of an out-of-contract command has been recorded at the request handshake of a
`DEBUG_ASSERT = 1` instance: the response `{2, 0}` is offered, and no transaction was made (R172; log 3). -/
structure State.OocOk (s : State) (f : Flight) : Prop where
  outOfReset : s.rstN = true
  decoded : f.cmd = (decode f.req.word).toOption
  sidebandHeld : f.req.side = s.sideband
  debug : s.cfg.debugAssert = true
  untouched : s.touched f = []
  responds : s.memPort = none ∧ s.respPort = some (responseWord .ooc 0)
  outOfContract : ∃ i, f.cmd = some i ∧ f.req.side.bufLen s.cfg < leastLen s.cfg i ∧
    Fault.outOfContract i (accessOf s.cfg i).loc.off (accessOf s.cfg i).loc.width (f.req.side.bufLen s.cfg) ∈ s.faults

/-- The ports are consistent with what is in flight (R30, R33, R87): no port is valid while no command is in flight; while one is,
`FlightOk`, or, only if a fault is recorded, `OocOk`. -/
def State.PortsOk (s : State) : Prop :=
  match s.flight with
  | none => s.memPort = none ∧ s.respPort = none
  | some f => s.FlightOk f ∨ (s.faults ≠ [] ∧ s.OocOk f)

/-- The invariant that every step keeps. -/
def State.Inv (s : State) : Prop := s.MemoryOk ∧ s.LedgerOk ∧ s.PortsOk

/-- The handshake of an input takes place in a state: its other side is there (R87, R88). A memory's answer takes place while it owes
one. -/
def State.offers (s : State) : Input → Bool
  | .memAccept => s.memPort.isSome
  | .memAnswer => !(s.abandoned ++ s.unanswered).isEmpty
  | .respAccept => s.respPort.isSome
  | .command _ | .request _ | .resetFalls | .resetRises | .foreign _ => false

/-- Each input of a list takes place, one after the other, from a state on: the state offers it, and the next state offers the rest. -/
def TakePlace : List Input → State → Prop
  | [], _ => True
  | x :: es, s => s.offers x = true ∧ ∀ t, step { s with inputs := [x] } = .next t → TakePlace es t

end Sys2Proof.Machine
end

