-- ==== Sys2Proof/Certificates/Slice0/Obligations.lean ====
section
/-!
DEFINITION. The statements about the model, for the provers. Each docstring names the rules of spec/ it states.
-/

open Sys2Proof Sys2Proof.Machine

/-! ### Reset -/

/-- R33: the values after reset: the core is idle and ready (and not ready while `rst_n = 0`), and the run has given nothing yet. So it is at the start of
every run (R211), on every instance, every contents of memory (R28) and every command list. The contents of memory in `State.reset`
are the model's choice (log 1), and nothing is said of them. -/
def Obligations.ResetStateIsIdleAndReady : Prop :=
  (State.reset.Idle ∧ State.reset.reqReady = true ∧ State.reset.seq = 0 ∧ State.reset.responses = []) ∧
  (∀ s : State, s.rstN = false → s.reqReady = false) ∧
  ∀ (c : Config) (m : Memory) (cmds : List Request),
    (launch c m cmds).Idle ∧ (launch c m cmds).reqReady = true ∧ (launch c m cmds).seq = 0 ∧
      (launch c m cmds).responses = [] ∧ (launch c m cmds).faults = [] ∧ (launch c m cmds).mem = m ∧
      (launch c m cmds).cfg = c

/-- The invariant holds after reset. -/
def Obligations.ResetSatisfiesInvariant : Prop := State.reset.Inv

/-- R200: while `rst_n = 0` no command is in flight, no port is valid, the core is not ready and memory is as it was; it stays so
whatever is offered; when `rst_n` rises the core is idle and ready. -/
def Obligations.ResetAbandonsAndKeepsMemory : Prop :=
  ∀ (s : State) (rest : List Input), s.faults = [] → s.inputs = .resetFalls :: rest →
    ∃ t, step s = .next t ∧ t.rstN = false ∧ t.flight = none ∧ t.memPort = none ∧ t.respPort = none ∧
      t.mem = s.mem ∧ t.cfg = s.cfg ∧ t.reqReady = false ∧ t.inputs = rest ∧
      (∀ r rest', step { t with inputs := .command r :: rest' } = .next { t with inputs := .command r :: rest' } ∧
        step { t with inputs := .request r :: rest' } = .next { t with inputs := .request r :: rest' }) ∧
      ∀ rest', ∃ u, step { t with inputs := .resetRises :: rest' } = .next u ∧ u.Idle ∧ u.reqReady = true ∧
        u.mem = s.mem ∧ u.inputs = rest'

/-! ### Encoding -/

/-- R77 with R72 and R76: every command's word decodes to it, with every operand. -/
def Obligations.DecodeOfEncode : Prop := ∀ i : Instr, decode (encode i) = .ok i

/-- R84, R72: a word that decodes is the word of the command it decodes to, so each command with its operands has one word. -/
def Obligations.EncodeOfDecode : Prop := ∀ (cw : CommandWord) (i : Instr), decode cw = .ok i → encode i = cw

/-- R84: a word is a given row's command exactly when `(cw AND mask) = match`; no two rows match the same word; a word that no row
matches is exactly one for which `decode` returns `Illegal`. The spec marks R84 as derived from R72, R76 and R77. -/
def Obligations.OpcodeMapAgreesWithDecode : Prop :=
  opcodeMap.length = 22 ∧
  (∀ row ∈ opcodeMap, ∀ cw : CommandWord,
    cw &&& row.mask = row.bits ↔ ∃ i, decode cw = .ok i ∧ (encodeFields i).opc = row.bits.extractLsb' 0 8) ∧
  opcodeMap.Pairwise (fun r r' => ∀ cw : CommandWord, ¬ (cw &&& r.mask = r.bits ∧ cw &&& r'.mask = r'.bits)) ∧
  ∀ cw : CommandWord, (∀ row ∈ opcodeMap, cw &&& row.mask ≠ row.bits) ↔ ∃ e, decode cw = .error e

/-- R78: the illegal encodings are exactly `opc[3] = 1`; `sel = 0` with `wc = 3`; `sel` in 1..8 with `wc != 0`; `sel` in 9..15; any
1 in a must-be-zero bit of `ver`, `off` or `val` for the format of R72. -/
def Obligations.IllegalEncodingsAreExactly : Prop :=
  ∀ f : Fields, (∃ e, decode f.toWord = .error e) ↔
    f.rsv = 1 ∨ (f.sel = 0 ∧ f.wc = 3) ∨ (1 ≤ f.sel ∧ f.sel ≤ 8 ∧ f.wc ≠ 0) ∨ 9 ≤ f.sel ∨
      ∃ fmt, f.format = some fmt ∧ f.mbzOk fmt = false

/-- R78: of the 256 values of `opc`, 22 are commands and 234 are illegal. -/
def Obligations.TwentyTwoOpcodesAreCommands : Prop :=
  ∃ opcs : List (BitVec 8), opcs.length = 22 ∧ opcs.Nodup ∧
    ∀ opc : BitVec 8, opc ∈ opcs ↔ ∃ ver off val i, decode (Fields.toWord ⟨opc, ver, off, val⟩) = .ok i

/-- Sanity: command words of the spec's examples decode to the commands they stand for (R101 to R106, R124, R152, R153). -/
def Obligations.SpecExampleWordsDecode : Prop :=
  decode 0x0000000000190000 = .ok (.getU8 25) ∧ decode 0x0000000500190001 = .ok (.setU8 25 5) ∧
  decode 0x0000000000020002 = .ok (.getU16 2) ∧ decode 0x0102030400040005 = .ok (.setU32 4 0x01020304) ∧
  decode 0x0000000100000011 = .ok (.setVersion 1) ∧ decode 0x0000000000000180 = .ok (.getCommand 1) ∧
  decode 0x0000000500000481 = .ok (.setCommand 4 5)

/-! ### Steps -/

/-- A step runs the command the request's word decodes to, on the buffer its sidebands name, and takes the request off the list:
nothing else happens around `exec` (R21, R46, R83). -/
def Obligations.StepRunsDecodedCommand : Prop :=
  ∀ (s : State) (r : Request) (rest : List Input) (i : Instr),
    s.faults = [] → s.reqReady = true → s.inputs = .command r :: rest → decode r.word = .ok i →
    step s = exec i { s with inputs := rest, sideband := r.side }

/-- R173, for the command as one transition and at the ports: a word that is not a command makes no memory transaction, leaves
memory as it is, and is answered with status 1 and value 0, whatever the buffer is. -/
def Obligations.IllegalWordIsAnsweredWithStatusOne : Prop :=
  ∀ (s : State) (r : Request) (rest : List Input) (e : Illegal),
    s.faults = [] → s.Idle → decode r.word = .error e →
    (s.inputs = .command r :: rest →
      step s = .next { s with inputs := rest, sideband := r.side, seq := s.seq + 1,
                              responses := s.responses ++ [(0x100000000 : ResponseWord)] }) ∧
    (s.inputs = .request r :: .respAccept :: rest →
      ∃ t, step s = .next t ∧ t.memPort = none ∧ t.mem = s.mem ∧ t.respPort = some 0x100000000 ∧
        ∃ u, step t = .next u ∧ u.Idle ∧ u.mem = s.mem ∧
          u.responses = s.responses ++ [(0x100000000 : ResponseWord)] ∧ u.seq = s.seq + 1 ∧ u.inputs = rest)

/-- R14, R175: nothing happens in the core without a command: with no input the state stays as it is, however long the run goes on,
whether or not a command is in flight. -/
def Obligations.NothingRunsWithoutInput : Prop :=
  ∀ (n : Nat) (s : State), s.faults = [] → s.inputs = [] →
    step s = .next s ∧ Host.Core.run core n s = .next s ∧ runFor n s = s

/-- R171, R32, as log 13 models them: after a recorded fault the run has no further meaning: no step answers a next state, and a run leaves the state as it
is but for the fault record, from which nothing is removed. -/
def Obligations.FaultRecordIsNeverLeft : Prop :=
  (∀ s : State, s.faults ≠ [] → step s = .fault .runFaulted) ∧
  ∀ (n : Nat) (s : State), (∃ fs, (runFor n s).faults = s.faults ++ fs) ∧
    (s.faults ≠ [] → runFor n s = { s with faults := (runFor n s).faults } ∧ ∀ k, (runFor n s).result k = none)

/-- R23, R6: the parameters of the instance are constants: no step changes them. -/
def Obligations.ConfigNeverChanges : Prop :=
  ∀ s t : State, step s = .next t → t.cfg = s.cfg

/-- R171, R21, R156: a command that answers at all answers one response word and moves the index from `k` to `k + 1`; a command
ends in a next state, in `OutOfContract` exactly if the buffer is too short for it, or, where its buffer runs past the top of memory
(log 5), in `noSuchAddress`; it is never refused. -/
def Obligations.CommandOutcomesAreExactly : Prop :=
  ∀ (i : Instr) (s : State),
    (∀ t, exec i s = .next t → t.seq = s.seq + 1 ∧ t.responses.length = s.responses.length + 1) ∧
    ((∃ o w l, exec i s = .fault (.outOfContract i o w l)) ↔ s.bufLen < leastLen s.cfg i) ∧
    (InContract s.cfg i s.sideband → ∃ t, exec i s = .next t) ∧
    (∀ f, exec i s = .fault f → (∃ o w l, f = .outOfContract i o w l) ∨
      (¬ s.sideband.fits s.cfg ∧ ∃ a, s.cfg.addressSpace ≤ a ∧ f = .noSuchAddress i a)) ∧
    ∀ q, exec i s ≠ .refused q

/-! ### Byte-order primitives (BOP) -/

/-- R101 `get_u8`. -/
def Obligations.GetU8ReadsOneByte : Prop :=
  ∀ (off : Offset) (s : State),
    decode (Fields.toWord ⟨0x00#8, 0#8, off, 0#32⟩) = .ok (.getU8 off) ∧
    ReadsAs (.getU8 off) s off.toNat 1 (off.toNat + 1) (s.buf off.toNat).toNat

/-- R102 `get_u16`: `B[0]*256 + B[1]`. -/
def Obligations.GetU16ReadsBigEndian : Prop :=
  ∀ (off : Offset) (s : State),
    decode (Fields.toWord ⟨0x02#8, 0#8, off, 0#32⟩) = .ok (.getU16 off) ∧
    ReadsAs (.getU16 off) s off.toNat 2 (off.toNat + 2)
      ((s.buf off.toNat).toNat * 256 + (s.buf (off.toNat + 1)).toNat)

/-- R103 `get_u32`: `B[0]*2^24 + B[1]*2^16 + B[2]*2^8 + B[3]`. -/
def Obligations.GetU32ReadsBigEndian : Prop :=
  ∀ (off : Offset) (s : State),
    decode (Fields.toWord ⟨0x04#8, 0#8, off, 0#32⟩) = .ok (.getU32 off) ∧
    ReadsAs (.getU32 off) s off.toNat 4 (off.toNat + 4)
      ((s.buf off.toNat).toNat * 2 ^ 24 + (s.buf (off.toNat + 1)).toNat * 2 ^ 16 +
        (s.buf (off.toNat + 2)).toNat * 2 ^ 8 + (s.buf (off.toNat + 3)).toNat)

/-- R104 `set_u8`. -/
def Obligations.SetU8WritesOneByte : Prop :=
  ∀ (off : Offset) (v : Byte) (s : State),
    decode (Fields.toWord ⟨0x01#8, 0#8, off, v.setWidth 32⟩) = .ok (.setU8 off v) ∧
    WritesAs (.setU8 off v) s off.toNat 1 (off.toNat + 1) [v]

/-- R105 `set_u16`: `BUF[off] <- val[15:8]`, `BUF[off+1] <- val[7:0]`. -/
def Obligations.SetU16WritesBigEndian : Prop :=
  ∀ (off : Offset) (v : Half) (s : State),
    decode (Fields.toWord ⟨0x03#8, 0#8, off, v.setWidth 32⟩) = .ok (.setU16 off v) ∧
    WritesAs (.setU16 off v) s off.toNat 2 (off.toNat + 2) [v.extractLsb' 8 8, v.extractLsb' 0 8]

/-- R106 `set_u32`: `val[31:24]`, `val[23:16]`, `val[15:8]`, `val[7:0]` at `off` to `off+3`. -/
def Obligations.SetU32WritesBigEndian : Prop :=
  ∀ (off : Offset) (v : Value) (s : State),
    decode (Fields.toWord ⟨0x05#8, 0#8, off, v⟩) = .ok (.setU32 off v) ∧
    WritesAs (.setU32 off v) s off.toNat 4 (off.toNat + 4)
      [v.extractLsb' 24 8, v.extractLsb' 16 8, v.extractLsb' 8 8, v.extractLsb' 0 8]

/-- R107: after `set_uN off, v`, `get_uN off` returns `v`, provided no write to `[off, off+w)` comes between. The spec marks R107 as
derived from R101 to R106. -/
def Obligations.PrimitiveRoundTrip : Prop :=
  ∀ (wc : Nat) (off : Offset) (v : Value) (s : State),
    wc ≤ 2 → v.toNat < 256 ^ 2 ^ wc → off.toNat + 2 ^ wc ≤ s.bufLen → s.sideband.fits s.cfg →
    ∃ t, exec (primSetOf wc off v) s = .next t ∧
      ∀ u, SameRange t u off.toNat (2 ^ wc) →
        exec (primGetOf wc off) u = .next (u.answered .ok v)

/-- R43: a read of width `w'` at offset `off + j` after a write of a `w`-byte value at `off` returns the bits
`v[8*(w-j)-1 : 8*(w-j-w')]`. The spec marks R43 as derived from R40. -/
def Obligations.MixedWidthReadSeesItsBits : Prop :=
  ∀ (wc wc' j : Nat) (off off' : Offset) (v : Value) (s : State),
    wc ≤ 2 → wc' ≤ 2 → j + 2 ^ wc' ≤ 2 ^ wc → off'.toNat = off.toNat + j → v.toNat < 256 ^ 2 ^ wc →
    off.toNat + 2 ^ wc ≤ s.bufLen → s.sideband.fits s.cfg →
    ∃ t, exec (primSetOf wc off v) s = .next t ∧
      exec (primGetOf wc' off') t =
        .next (t.answered .ok (BitVec.ofNat 32 (v.toNat / 256 ^ (2 ^ wc - j - 2 ^ wc') % 256 ^ 2 ^ wc')))

/-- R108: two primitive sets whose ranges do not overlap commute: memory after both is the same in either order. The spec marks R108 as
derived from R104 to R106. -/
def Obligations.DisjointSetsCommute : Prop :=
  ∀ (wc wc' : Nat) (off off' : Offset) (v v' : Value) (s : State),
    wc ≤ 2 → wc' ≤ 2 → off.toNat + 2 ^ wc ≤ off'.toNat ∨ off'.toNat + 2 ^ wc' ≤ off.toNat →
    off.toNat + 2 ^ wc ≤ s.bufLen → off'.toNat + 2 ^ wc' ≤ s.bufLen → s.sideband.fits s.cfg →
    ∃ t t2 u u2, exec (primSetOf wc off v) s = .next t ∧ exec (primSetOf wc' off' v') t = .next t2 ∧
      exec (primSetOf wc' off' v') s = .next u ∧ exec (primSetOf wc off v) u = .next u2 ∧
      ∀ a, t2.mem.read a = u2.mem.read a

/-- R44, R48: with `AW` at most 16, which the layout of the command word assumes (D7), a two-byte access at offset 65535 is out of
contract on every buffer, and does not wrap to offset 0; a four-byte access is from 65533 on. -/
def Obligations.OffsetsDoNotWrap : Prop :=
  ∀ (off : Offset) (v : Half) (x : Value) (s : State), s.cfg.aw ≤ 16 →
    (off.toNat = 65535 →
      exec (.getU16 off) s = .fault (.outOfContract (.getU16 off) 65535 2 s.bufLen) ∧
      exec (.setU16 off v) s = .fault (.outOfContract (.setU16 off v) 65535 2 s.bufLen)) ∧
    (65533 ≤ off.toNat →
      exec (.getU32 off) s = .fault (.outOfContract (.getU32 off) off.toNat 4 s.bufLen) ∧
      exec (.setU32 off x) s = .fault (.outOfContract (.setU32 off x) off.toNat 4 s.bufLen))

/-! ### Header field accessors (HFX) -/

/-- R123, R124 `get_version`, `set_version`: byte 0. -/
def Obligations.VersionAccessors : Prop :=
  ∀ (v : Byte) (s : State),
    decode (Fields.toWord ⟨0x10#8, 0#8, 0#16, 0#32⟩) = .ok .getVersion ∧
    ReadsAs .getVersion s 0 1 8 (s.buf 0).toNat ∧
    decode (Fields.toWord ⟨0x11#8, 0#8, 0#16, v.setWidth 32⟩) = .ok (.setVersion v) ∧
    WritesAs (.setVersion v) s 0 1 8 [v]

/-- R125, R126 `get_type`, `set_type`: byte 1. -/
def Obligations.TypeAccessors : Prop :=
  ∀ (v : Byte) (s : State),
    decode (Fields.toWord ⟨0x20#8, 0#8, 0#16, 0#32⟩) = .ok .getType ∧
    ReadsAs .getType s 1 1 8 (s.buf 1).toNat ∧
    decode (Fields.toWord ⟨0x21#8, 0#8, 0#16, v.setWidth 32⟩) = .ok (.setType v) ∧
    WritesAs (.setType v) s 1 1 8 [v]

/-- R127, R128 `get_length`, `set_length`: bytes 2 and 3. -/
def Obligations.LengthAccessors : Prop :=
  ∀ (v : Half) (s : State),
    decode (Fields.toWord ⟨0x30#8, 0#8, 0#16, 0#32⟩) = .ok .getLength ∧
    ReadsAs .getLength s 2 2 8 ((s.buf 2).toNat * 256 + (s.buf 3).toNat) ∧
    decode (Fields.toWord ⟨0x31#8, 0#8, 0#16, v.setWidth 32⟩) = .ok (.setLength v) ∧
    WritesAs (.setLength v) s 2 2 8 [v.extractLsb' 8 8, v.extractLsb' 0 8]

/-- R129, R130 `get_xid`, `set_xid`: bytes 4 to 7. -/
def Obligations.XidAccessors : Prop :=
  ∀ (v : Value) (s : State),
    decode (Fields.toWord ⟨0x40#8, 0#8, 0#16, 0#32⟩) = .ok .getXid ∧
    ReadsAs .getXid s 4 4 8
      ((s.buf 4).toNat * 2 ^ 24 + (s.buf 5).toNat * 2 ^ 16 + (s.buf 6).toNat * 2 ^ 8 + (s.buf 7).toNat) ∧
    decode (Fields.toWord ⟨0x41#8, 0#8, 0#16, v⟩) = .ok (.setXid v) ∧
    WritesAs (.setXid v) s 4 4 8
      [v.extractLsb' 24 8, v.extractLsb' 16 8, v.extractLsb' 8 8, v.extractLsb' 0 8]

/-- R131, R132 `get_stats_type`, `set_stats_type`: bytes 8 and 9. -/
def Obligations.StatsTypeAccessors : Prop :=
  ∀ (v : Half) (s : State),
    decode (Fields.toWord ⟨0x50#8, 0#8, 0#16, 0#32⟩) = .ok .getStatsType ∧
    ReadsAs .getStatsType s 8 2 10 ((s.buf 8).toNat * 256 + (s.buf 9).toNat) ∧
    decode (Fields.toWord ⟨0x51#8, 0#8, 0#16, v.setWidth 32⟩) = .ok (.setStatsType v) ∧
    WritesAs (.setStatsType v) s 8 2 10 [v.extractLsb' 8 8, v.extractLsb' 0 8]

/-- R133, R134 `get_experimenter_id`, `set_experimenter_id`: bytes 8 to 11. -/
def Obligations.ExperimenterIdAccessors : Prop :=
  ∀ (v : Value) (s : State),
    decode (Fields.toWord ⟨0x60#8, 0#8, 0#16, 0#32⟩) = .ok .getExperimenterId ∧
    ReadsAs .getExperimenterId s 8 4 16
      ((s.buf 8).toNat * 2 ^ 24 + (s.buf 9).toNat * 2 ^ 16 + (s.buf 10).toNat * 2 ^ 8 + (s.buf 11).toNat) ∧
    decode (Fields.toWord ⟨0x61#8, 0#8, 0#16, v⟩) = .ok (.setExperimenterId v) ∧
    WritesAs (.setExperimenterId v) s 8 4 16
      [v.extractLsb' 24 8, v.extractLsb' 16 8, v.extractLsb' 8 8, v.extractLsb' 0 8]

/-- R135, R136 `get_experimenter_subtype`, `set_experimenter_subtype`: bytes 12 to 15. -/
def Obligations.ExperimenterSubtypeAccessors : Prop :=
  ∀ (v : Value) (s : State),
    decode (Fields.toWord ⟨0x70#8, 0#8, 0#16, 0#32⟩) = .ok .getExperimenterSubtype ∧
    ReadsAs .getExperimenterSubtype s 12 4 16
      ((s.buf 12).toNat * 2 ^ 24 + (s.buf 13).toNat * 2 ^ 16 + (s.buf 14).toNat * 2 ^ 8 + (s.buf 15).toNat) ∧
    decode (Fields.toWord ⟨0x71#8, 0#8, 0#16, v⟩) = .ok (.setExperimenterSubtype v) ∧
    WritesAs (.setExperimenterSubtype v) s 12 4 16
      [v.extractLsb' 24 8, v.extractLsb' 16 8, v.extractLsb' 8 8, v.extractLsb' 0 8]

/-- R137: after `set_F v` on an in-contract buffer, `get_F` on the same buffer returns `v`, provided no write to the field's bytes
comes between. -/
def Obligations.FieldRoundTrip : Prop :=
  ∀ (F : Field) (v : Value) (s : State),
    v.toNat < 256 ^ (fieldLocation F).width → fieldMinLen F ≤ s.bufLen → s.sideband.fits s.cfg →
    ∃ t, exec (fieldSetOf F v) s = .next t ∧
      ∀ u, SameRange t u (fieldLocation F).off (fieldLocation F).width →
        exec (fieldGetOf F) u = .next (u.answered .ok v)

/-- R138: after `set_experimenter_id v`, `get_stats_type` returns `v[31:16]`; after `set_stats_type x`, `get_experimenter_id` returns
`{x, BUF[10], BUF[11]}` with bytes 10 and 11 as they were; a set of a field leaves the bytes of every other field that is not its
overlay unchanged. The spec marks R138 as derived from R43. -/
def Obligations.OverlayAndNoOtherOverlap : Prop :=
  ∀ (v : Value) (x : Half) (s : State), 16 ≤ s.bufLen → s.sideband.fits s.cfg →
    (∃ t, exec (.setExperimenterId v) s = .next t ∧
      exec .getStatsType t = .next (t.answered .ok (BitVec.ofNat 32 (v.toNat / 2 ^ 16)))) ∧
    (∃ t, exec (.setStatsType x) s = .next t ∧
      exec .getExperimenterId t = .next (t.answered .ok (x ++ s.buf 10 ++ s.buf 11 : BitVec 32))) ∧
    ∀ F G : Field, F ≠ G → ¬ (F = .statsType ∧ G = .experimenterId) → ¬ (F = .experimenterId ∧ G = .statsType) →
      ∃ t, exec (fieldSetOf F v) s = .next t ∧
        SameRange s t (fieldLocation G).off (fieldLocation G).width

/-- R139: on a buffer with `LEN >= MINLEN(F)` an accessor has the same outcome as the primitive of its width at its offset, response
and memory alike; on a shorter buffer that still holds the field, the primitive is in contract and the accessor is not, get and
set alike; that happens for version (`LEN` 1 to 7), type (2 to 7), length (4 to 7) and experimenter id (12 to 15), and for no other field. The spec marks
R139 as derived from R121, R123 to R136, R50 and R51. -/
def Obligations.AccessorsEqualPrimitives : Prop :=
  ∀ (F : Field) (wc : Nat) (off : Offset) (v : Value) (s : State),
    2 ^ wc = (fieldLocation F).width → off.toNat = (fieldLocation F).off → s.sideband.fits s.cfg →
    (fieldMinLen F ≤ s.bufLen →
      (∃ t, exec (fieldGetOf F) s = .next t) ∧ exec (fieldGetOf F) s = exec (primGetOf wc off) s ∧
      (∃ t, exec (fieldSetOf F v) s = .next t) ∧ exec (fieldSetOf F v) s = exec (primSetOf wc off v) s) ∧
    (((∃ t f, exec (primGetOf wc off) s = .next t ∧ exec (fieldGetOf F) s = .fault f) ↔
        ∃ t f, exec (primSetOf wc off v) s = .next t ∧ exec (fieldSetOf F v) s = .fault f)) ∧
    ((∃ t f, exec (primSetOf wc off v) s = .next t ∧ exec (fieldSetOf F v) s = .fault f) ↔
      (F = .version ∧ 1 ≤ s.bufLen ∧ s.bufLen ≤ 7) ∨
      (F = .type ∧ 2 ≤ s.bufLen ∧ s.bufLen ≤ 7) ∨
      (F = .length ∧ 4 ≤ s.bufLen ∧ s.bufLen ≤ 7) ∨
      (F = .experimenterId ∧ 12 ≤ s.bufLen ∧ s.bufLen ≤ 15))

/-- R122, R54: the message type gates nothing: whatever byte 1 of the buffer holds, the stats and experimenter accessors are performed
alike: same response, and the same effect on every byte but byte 1 itself. -/
def Obligations.MessageTypeGatesNothing : Prop :=
  ∀ (F : Field) (v : Value) (b : Byte) (s : State),
    F = .statsType ∨ F = .experimenterId ∨ F = .experimenterSubtype →
    fieldMinLen F ≤ s.bufLen → s.sideband.fits s.cfg →
    (∃ x, exec (fieldGetOf F) s = .next (s.answered .ok x) ∧
      ∀ s', s' = { s with mem := s.mem.write (s.sideband.address 1) b } →
        exec (fieldGetOf F) s' = .next (s'.answered .ok x)) ∧
    ∃ m m', exec (fieldSetOf F v) s = .next ({ s with mem := m }.answered .ok 0) ∧
      exec (fieldSetOf F v) { s with mem := s.mem.write (s.sideband.address 1) b } =
        .next ({ s with mem := m' }.answered .ok 0) ∧
      ∀ a, a ≠ s.sideband.address 1 → m'.read a = m.read a

/-! ### Flow-mod command accessors (FMR) -/

/-- R152 `get_command`: with the tag of version 1.0, the low byte of the two bytes at 56, both of which are read, each once; else the
byte at 25. -/
def Obligations.GetCommandRoutesAndNarrows : Prop :=
  ∀ (ver : VersionTag) (s : State),
    decode (Fields.toWord ⟨0x80#8, ver, 0#16, 0#32⟩) = .ok (.getCommand ver) ∧
    (ver = s.cfg.verOneZero →
      ReadsAs (.getCommand ver) s 56 2 58 (((s.buf 56).toNat * 256 + (s.buf 57).toNat) % 256) ∧
      transactions (accessOf s.cfg (.getCommand ver)) s.sideband =
        [.read (s.sideband.address 56), .read (s.sideband.address 57)]) ∧
    (ver ≠ s.cfg.verOneZero →
      ReadsAs (.getCommand ver) s 25 1 26 (s.buf 25).toNat ∧
      transactions (accessOf s.cfg (.getCommand ver)) s.sideband =
        [.read (s.sideband.address 25)])

/-- R153 `set_command`: with the tag of version 1.0, `00` and the value at 56 and 57; else the value at 25. -/
def Obligations.SetCommandRoutesAndWidens : Prop :=
  ∀ (ver : VersionTag) (v : Byte) (s : State),
    decode (Fields.toWord ⟨0x81#8, ver, 0#16, v.setWidth 32⟩) = .ok (.setCommand ver v) ∧
    (ver = s.cfg.verOneZero → WritesAs (.setCommand ver v) s 56 2 58 [0, v]) ∧
    (ver ≠ s.cfg.verOneZero → WritesAs (.setCommand ver v) s 25 1 26 [v])

/-- R154: the high byte is dropped without a sign: the answer is the byte at 57 with status `OK` whatever the byte at 56 is, while
`get_u16 56` reads the whole field. -/
def Obligations.NarrowingDropsTheHighByte : Prop :=
  ∀ (s : State), 58 ≤ s.bufLen → s.sideband.fits s.cfg →
    exec (.getCommand s.cfg.verOneZero) s = .next (s.answered .ok ((s.buf 57).setWidth 32)) ∧
    exec (.getU16 56) s = .next (s.answered .ok ((s.buf 56 ++ s.buf 57).setWidth 32))

/-- R155: round trip for every tag, on every buffer in contract for it; the version 1.0 path and the other path are different storage;
two tags that both differ from `VER_1_0` are the same storage. The spec marks R155 as derived from R150, R152 and R153. -/
def Obligations.CommandRoundTripAndNonAliasing : Prop :=
  ∀ (ver ver' : VersionTag) (v : Byte) (s : State), InContract s.cfg (.setCommand ver v) s.sideband →
    ∃ t, exec (.setCommand ver v) s = .next t ∧
      exec (.getCommand ver) t = .next (t.answered .ok (v.setWidth 32)) ∧
      (ver ≠ s.cfg.verOneZero → ver' ≠ s.cfg.verOneZero →
        exec (.getCommand ver') t = .next (t.answered .ok (v.setWidth 32))) ∧
      ((ver = s.cfg.verOneZero ↔ ver' ≠ s.cfg.verOneZero) → InContract s.cfg (.getCommand ver') s.sideband →
        ∃ x, exec (.getCommand ver') s = .next (s.answered .ok x) ∧
          exec (.getCommand ver') t = .next (t.answered .ok x))

/-- R157: the version comes from the operand, never from the buffer: whatever byte 0 of the buffer holds, the command is performed
for the tag passed, on every buffer in contract for it. -/
def Obligations.VersionComesFromTheOperand : Prop :=
  ∀ (ver : VersionTag) (v b : Byte) (s : State), InContract s.cfg (.getCommand ver) s.sideband →
    (∃ x, exec (.getCommand ver) s = .next (s.answered .ok x) ∧
      ∀ s', s' = { s with mem := s.mem.write (s.sideband.address 0) b } →
        exec (.getCommand ver) s' = .next (s'.answered .ok x)) ∧
    ∃ m m', exec (.setCommand ver v) s = .next ({ s with mem := m }.answered .ok 0) ∧
      exec (.setCommand ver v) { s with mem := s.mem.write (s.sideband.address 0) b } =
        .next ({ s with mem := m' }.answered .ok 0) ∧
      ∀ a, a ≠ s.sideband.address 0 → m'.read a = m.read a

/-- R158: on a 26-byte buffer the command of a tag other than `VER_1_0` is in contract and that of `VER_1_0` is not; on 57 bytes the
latter still is not; on 58 both are. -/
def Obligations.CommandBoundaryLengths : Prop :=
  ∀ (ver : VersionTag) (v : Byte) (s : State), ver ≠ s.cfg.verOneZero → s.sideband.fits s.cfg →
    (s.bufLen = 26 →
      (∃ t, exec (.getCommand ver) s = .next t) ∧ (∃ t, exec (.setCommand ver v) s = .next t)) ∧
    (26 ≤ s.bufLen → s.bufLen ≤ 57 →
      exec (.getCommand s.cfg.verOneZero) s =
        .fault (.outOfContract (.getCommand s.cfg.verOneZero) 56 2 s.bufLen) ∧
      exec (.setCommand s.cfg.verOneZero v) s =
        .fault (.outOfContract (.setCommand s.cfg.verOneZero v) 56 2 s.bufLen)) ∧
    (s.bufLen = 58 →
      (∃ t, exec (.getCommand ver) s = .next t) ∧ ∃ t, exec (.getCommand s.cfg.verOneZero) s = .next t)

/-! ### All commands -/

/-- Frame of the eleven gets (R47): when one answers a next state, every byte of memory, the parameters, the sidebands, the ports,
the command in flight, the fault record and the inputs are unchanged; the response list grows by one word, the index by one. -/
def Obligations.GetsChangeNothingButTheResponse : Prop :=
  ∀ (i : Instr) (s t : State), isSet s.cfg i = false → exec i s = .next t →
    (∀ a, t.mem.read a = s.mem.read a) ∧
    ∃ v, t = { s with mem := t.mem, responses := s.responses ++ [responseWord .ok v], seq := s.seq + 1 }

/-- Frame of the eleven sets (R47, R108): when one answers a next state, every byte of memory outside the bytes it stores to is
unchanged, and so is everything else but the response list and the index, which grow by `OK` with value 0 and by one. The bytes stored
to are the `w` bytes from the address of the command's offset in the buffer. -/
def Obligations.SetsChangeOnlyTheirRange : Prop :=
  ∀ (i : Instr) (s t : State), isSet s.cfg i = true → exec i s = .next t →
    (∀ a, a < s.sideband.address (accessOf s.cfg i).loc.off ∨
        s.sideband.address (accessOf s.cfg i).loc.off + (accessOf s.cfg i).loc.width ≤ a →
      t.mem.read a = s.mem.read a) ∧
    t = { s with mem := t.mem, responses := s.responses ++ [(0 : ResponseWord)], seq := s.seq + 1 }

/-- R47: a repeated set is idempotent: done again it leaves every byte of memory as it is. -/
def Obligations.SetsAreIdempotent : Prop :=
  ∀ (i : Instr) (s t : State), isSet s.cfg i = true → exec i s = .next t →
    ∃ u, exec i t = .next u ∧ ∀ a, u.mem.read a = t.mem.read a

/-- R47: no in-contract command reads a byte outside its range: if two states agree on the `w` bytes of a command's range, the
command's responses agree. -/
def Obligations.ResponseDependsOnTheRangeOnly : Prop :=
  ∀ (i : Instr) (s s' : State), InContract s.cfg i s.sideband →
    SameRange s s' (accessOf s.cfg i).loc.off (accessOf s.cfg i).loc.width →
    ∃ t t' rw, exec i s = .next t ∧ exec i s' = .next t' ∧
      t.responses = s.responses ++ [rw] ∧ t'.responses = s'.responses ++ [rw]

/-- R22, R178: no command reads an earlier response or the index: on a state with any other response list and index it does the
same. -/
def Obligations.NoStatusIsSticky : Prop :=
  ∀ (i : Instr) (s : State) (rws : List ResponseWord) (k : Nat), InContract s.cfg i s.sideband →
    ∃ m v, exec i s = .next ({ s with mem := m }.answered .ok v) ∧
      exec i { s with responses := rws, seq := k } =
        .next ({ s with mem := m, responses := rws, seq := k }.answered .ok v)

/-- R83: a buffer length above the largest, `2^AW` (65536 for the value of R6), acts as the largest: the same outcome, but for the
sideband itself. -/
def Obligations.LengthsAboveTheLargestActAsIt : Prop :=
  ∀ (i : Instr) (s : State) (b : Sideband), s.cfg.maxLen ≤ b.len →
    (∀ t, exec i { s with sideband := { b with len := s.cfg.maxLen } } = .next t →
      exec i { s with sideband := b } = .next { t with sideband := b }) ∧
    ∀ f, exec i { s with sideband := { b with len := s.cfg.maxLen } } = .fault f →
      exec i { s with sideband := b } = .fault f

/-! ### The ports -/

/-- R171, R172: a command that is not in contract is the fault `OutOfContract`, whatever `DEBUG_ASSERT` is, as one transition and at
the ports: a step of a run records it at once, and the run goes no further, whatever comes next. With `DEBUG_ASSERT = 1` the port level
shows status `OOC`, value 0, on the response port with it, and makes no memory transaction (log 3). -/
def Obligations.OutOfContractIsTheFault : Prop :=
  ∀ (s : State) (r : Request) (rest : List Input) (i : Instr),
    s.Idle → decode r.word = .ok i → r.side.bufLen s.cfg < leastLen s.cfg i →
    ∃ f, f = Fault.outOfContract i (accessOf s.cfg i).loc.off (accessOf s.cfg i).loc.width (r.side.bufLen s.cfg) ∧
      (s.inputs = .command r :: rest → step s = .fault f) ∧
      (s.inputs = .request r :: rest → s.cfg.debugAssert = false → step s = .fault f) ∧
      (s.inputs = .request r :: rest → s.cfg.debugAssert = true →
        ∃ t, step s = .next t ∧ t.respPort = some 0x200000000 ∧ t.memPort = none ∧ t.mem = s.mem ∧ t.faults = [f]) ∧
      (s.inputs = .command r :: rest ∨ s.inputs = .request r :: rest →
        (advance s).faults = [f] ∧ ∀ es n k, step { advance s with inputs := es } = .fault .runFaulted ∧
          (runFor n { advance s with inputs := es }).result k = none)

/-- R87: a request is not accepted while the core is not ready, and it stays offered (log 14); once accepted, whether in flight or already
answered, the core is not ready until the response is accepted or reset falls. -/
def Obligations.RequestWaitsUntilReady : Prop :=
  ∀ (s : State) (r : Request) (rest : List Input), s.faults = [] → s.reqReady = false →
    (s.inputs = .command r :: rest → step s = .next s) ∧
    (s.inputs = .request r :: rest → step s = .next s) ∧
    ∀ t x, s.flight.isSome → s.inputs = x :: rest → x ≠ .respAccept → x ≠ .resetFalls → step s = .next t →
      t.reqReady = false

/-- R87, R88: an offered response is held until it is accepted, and an offered transaction likewise; only reset takes them away. -/
def Obligations.OffersAreHeldUntilAccepted : Prop :=
  ∀ (s t : State) (x : Input) (rest : List Input), s.Inv → s.inputs = x :: rest → step s = .next t →
    (∀ rw, s.respPort = some rw → x ≠ .respAccept → x ≠ .resetFalls → t.respPort = some rw) ∧
    (∀ m, s.memPort = some m → x ≠ .memAccept → x ≠ .resetFalls → t.memPort = some m)

/-- R88, with the model's choices of log 15, log 17, log 18 and log 19: a write is performed on memory when it is accepted; an accepted
read is added to the unanswered ones; an answer is that of the oldest unanswered read: if reset abandoned that read's command the
answer is dropped, and nothing else changes; else it carries the byte of memory at the read's address. A reset leaves the unanswered
reads owed, after those already owed. -/
def Obligations.MemoryPortTransactions : Prop :=
  ∀ (s : State) (rest : List Input), s.faults = [] →
    (∀ f, s.flight = some f → s.inputs = .memAccept :: rest →
      ∃ t, step s = .next t ∧ t.abandoned = s.abandoned ∧
        (s.memPort = none → t.mem = s.mem ∧ t.flight = s.flight) ∧
        (∀ a b, s.memPort = some (.write a b) → t.mem = s.mem.write a b ∧ t.unanswered = s.unanswered) ∧
        ∀ a, s.memPort = some (.read a) → t.mem = s.mem ∧ t.unanswered = s.unanswered ++ [a]) ∧
    (∀ a as, s.inputs = .memAnswer :: rest → s.abandoned = a :: as →
      step s = .next { s with inputs := rest, abandoned := as }) ∧
    (∀ f a as, s.flight = some f → s.inputs = .memAnswer :: rest → s.abandoned = [] → f.unanswered = a :: as →
      ∃ t g, step s = .next t ∧ t.mem = s.mem ∧ t.abandoned = [] ∧ t.flight = some g ∧ g.unanswered = as ∧
        g.got = f.got ++ [(a, s.mem.read a)]) ∧
    (s.inputs = .memAnswer :: rest → s.abandoned = [] → s.unanswered = [] → step s = .refused .unaskedAnswer) ∧
    (s.inputs = .resetFalls :: rest → ∃ t, step s = .next t ∧ t.abandoned = s.abandoned ++ s.unanswered ∧ t.unanswered = [])

/-- R46, R47, R56: whatever the order in which the core makes a command's byte transactions, and however the memory interleaves
its acceptances and answers, a command that has run through the ports has given the same response and left the same memory as the
command performed as one transition. The two levels are log 8, the free order log 9, when a transaction is offered log 17,
and that an answer owed from before a reset is not taken for the command's own log 19. -/
def Obligations.PortLevelAgreesWithOneTransition : Prop :=
  ∀ (s t : State) (r : Request) (es : List Input) (i : Instr),
    s.Idle → decode r.word = .ok i → InContract s.cfg i r.side →
    (∀ e ∈ es, e = .memAccept ∨ e = .memAnswer ∨ e = .respAccept) →
    Host.Core.run core (es.length + 1) { s with inputs := .request r :: es } = .next t → t.flight = none →
    ∃ u, exec i { s with inputs := [], sideband := r.side } = .next u ∧
      t.responses = u.responses ∧ t.seq = u.seq ∧ t.sideband = u.sideband ∧ t.cfg = u.cfg ∧ t.Idle ∧
      ∀ a, t.mem.read a = u.mem.read a

/-- R110, R210: however the memory and the caller order the handshakes that take place after a request is accepted, a command of
width `w` needs at most `2*w + 1` of them (and those in which the memory gives the answers it still owes from before a reset, log 19);
none of them faults; and as long as the core is not idle again, with the command's response accepted, another of them can take place:
it waits for nothing else. So a memory that accepts and answers every transaction, and a caller that accepts the response, complete
every command. -/
def Obligations.FairCommandCompletes : Prop :=
  ∀ (s : State) (r : Request) (i : Instr) (es : List Input),
    s.Idle → decode r.word = .ok i → InContract s.cfg i r.side →
    (∀ u, step { s with inputs := [.request r] } = .next u → TakePlace es u) →
    es.length ≤ 2 * (accessOf s.cfg i).loc.width + 1 + s.abandoned.length ∧
    ∃ t, Host.Core.run core (es.length + 1) { s with inputs := .request r :: es } = .next t ∧ t.faults = [] ∧
      ((t.Idle ∧ t.seq = s.seq + 1) ∨ (t.flight ≠ none ∧ ∃ x, t.offers x = true))

/-- R60, R171, R176: another agent's access faults the run with `Race` exactly if a set is in flight and the access touches its
buffer, or a get is in flight and the access writes its buffer; otherwise a write lands in memory and a read changes nothing. Other
agents are modelled by their single byte accesses, and an access to an address that memory does not have is a fault of its own
(log 16). -/
def Obligations.RaceIsExactlyABrokenExclusivity : Prop :=
  ∀ (s : State) (a : ForeignAccess) (rest : List Input), s.faults = [] → s.inputs = .foreign a :: rest →
    (s.cfg.addressSpace ≤ a.addr → step s = .fault (.noSuchByte a.addr)) ∧
    ((∃ i, step s = .fault (.race i)) ↔
      a.addr < s.cfg.addressSpace ∧
      ∃ f i, s.flight = some f ∧ f.cmd = some i ∧
        f.req.side.base ≤ a.addr ∧ a.addr < f.req.side.base + f.req.side.bufLen s.cfg ∧
        ((∃ addr b, a = .write addr b) ∨ isSet s.cfg i = true)) ∧
    (a.addr < s.cfg.addressSpace → (¬ ∃ i, step s = .fault (.race i)) →
      ∃ m, step s = .next { s with inputs := rest, mem := m } ∧
        (∀ addr b, a = .write addr b → m = s.mem.write addr b) ∧ ∀ addr, a = .read addr → m = s.mem)

/-- R201: when `rst_n` falls in the middle of a set, each byte of its range holds its old value or the new one, and every other byte
is unchanged: after any number of accepted transactions, in the free order of log 9. The empty response list is log 12's. -/
def Obligations.ResetInASetLeavesOldOrNewBytes : Prop :=
  ∀ (s t : State) (r : Request) (i : Instr) (n : Nat),
    s.Idle → decode r.word = .ok i → InContract s.cfg i r.side → isSet s.cfg i = true →
    Host.Core.run core (n + 2) { s with inputs := .request r :: (List.replicate n .memAccept ++ [.resetFalls]) } = .next t →
    ∃ u, exec i { s with inputs := [], sideband := r.side } = .next u ∧ t.responses = [] ∧ t.flight = none ∧
      ∀ a, (t.mem.read a = s.mem.read a ∨ t.mem.read a = u.mem.read a) ∧
        (a < r.side.address (accessOf s.cfg i).loc.off ∨
            r.side.address (accessOf s.cfg i).loc.off + (accessOf s.cfg i).loc.width ≤ a →
          t.mem.read a = s.mem.read a)

/-- R60: between commands another agent's write is seen by the next command: a get, of any of the eleven kinds, whose range holds the
byte answers the value of its range with that byte in its place. -/
def Obligations.WritesBetweenCommandsAreSeen : Prop :=
  ∀ (s : State) (addr : Nat) (b : Byte) (i : Instr) (n : Nat) (r : Request) (rest : List Input),
    s.Idle → decode r.word = .ok i → InContract s.cfg i r.side → (accessOf s.cfg i).action = .load n →
    r.side.address (accessOf s.cfg i).loc.off ≤ addr →
    addr < r.side.address (accessOf s.cfg i).loc.off + (accessOf s.cfg i).loc.width →
    s.inputs = .foreign (.write addr b) :: .command r :: rest →
    ∃ t, Host.Core.run core 2 s = .next t ∧
      t.responses = s.responses ++ [responseWord .ok (loadedValue n
        ((memRead s.mem (r.side.address (accessOf s.cfg i).loc.off) (accessOf s.cfg i).loc.width).set
          (addr - r.side.address (accessOf s.cfg i).loc.off) b))]

/-! ### Invariants and runs -/

/-- Every step keeps memory in its canonical form, with no byte listed at an address that does not exist; and the addresses of the
transaction on the memory port and of those a command in flight has still to offer exist, before the step and after it. -/
def Obligations.StepKeepsMemoryCanonical : Prop :=
  ∀ s t : State, s.MemoryOk → s.AddressesExist → step s = .next t → t.MemoryOk ∧ t.AddressesExist

/-- Every step keeps the invariant `State.Inv`: memory canonical; one response per completed command since reset, each `OK` or
`{ILLEGAL, 0}` (R174, R85); the ports consistent with what is in flight: the transactions still to make, the reads that wait for their
answer and those that have it are for bytes of the command's range, no two for the same byte, and all bytes of it for a get (R46, R47);
a response is offered only when nothing is pending (R57), and nothing else is waited for (R110). Three of its clauses are the model's
choice: that a transaction is on the port while one remains and a response is offered as soon as none does (log 17), that index and
response list start anew at a reset (log 12), and what stands on the ports when an out-of-contract command's fault is recorded
(log 3). -/
def Obligations.StepKeepsInvariant : Prop :=
  ∀ s t : State, s.Inv → step s = .next t → t.Inv

/-- R211: a run of a command list, each word illegal or a command in contract on its buffer, ends after as many steps as it has
commands, `k` at their number, with as many responses, no fault, and a result; it has not ended before. -/
def Obligations.CommandListRunsToItsEnd : Prop :=
  ∀ (c : Config) (m : Memory) (cmds : List Request),
    (∀ r ∈ cmds, ∀ i, decode r.word = .ok i → InContract c i r.side) →
    (∀ n, n < cmds.length → (runFor n (launch c m cmds)).ended cmds.length = false) ∧
    (runFor cmds.length (launch c m cmds)).ended cmds.length = true ∧
    (runFor cmds.length (launch c m cmds)).seq = cmds.length ∧
    (runFor cmds.length (launch c m cmds)).inputs = [] ∧
    ∃ rws m', (runFor cmds.length (launch c m cmds)).result cmds.length = some (rws, m') ∧ rws.length = cmds.length ∧
      ∀ rw ∈ rws, goodResponse rw
end

