-- ==== Sys2Proof/Laws/ByteOrder.lean ====
section
/-!
SUPPORT. The laws of `from_be` and `to_be` (R11): each undoes the other, and their values stay in range (R109).
-/
namespace Sys2Proof.Machine

@[simp] theorem length_toBe (n v : Nat) : (toBe n v).length = n := by
  induction n with
  | zero => rfl
  | succ n ih => simp [toBe, ih]

/-- `from_be` of `n` bytes is below `256^n` (R109). -/
theorem fromBe_lt (bs : List Byte) : fromBe bs < 256 ^ bs.length := by
  induction bs with
  | nil => simp [fromBe]
  | cons b bs ih =>
    have := b.isLt
    simp only [fromBe, List.length_cons, pow_succ]
    have h : b.toNat * 256 ^ bs.length ≤ 255 * 256 ^ bs.length := Nat.mul_le_mul_right _ (by omega)
    omega

theorem fromBe_toBe_mod (n v : Nat) : fromBe (toBe n v) = v % 256 ^ n := by
  induction n with
  | zero => simp [toBe, fromBe, Nat.mod_one]
  | succ n ih =>
    simp only [toBe, fromBe, ih, length_toBe, BitVec.toNat_ofNat, Nat.shiftRight_eq_div_pow]
    rw [show (2 : Nat) ^ (8 * n) = 256 ^ n by rw [pow_mul]; norm_num, pow_succ 256 n,
      @Nat.mod_mul (256 ^ n) 256 v, Nat.mul_comm, Nat.add_comm]

/-- `from_be(to_be(n, v)) = v` (R11). -/
theorem fromBe_toBe {n v : Nat} (h : v < 256 ^ n) : fromBe (toBe n v) = v := by
  rw [fromBe_toBe_mod, Nat.mod_eq_of_lt h]

theorem toBe_add_mul (n a v : Nat) : toBe n (a * 256 ^ n + v) = toBe n v := by
  induction n generalizing a v with
  | zero => rfl
  | succ n ih =>
    simp only [toBe]
    have e : a * 256 ^ (n + 1) + v = (a * 256) * 256 ^ n + v := by ring
    rw [e, ih]
    congr 1
    apply BitVec.eq_of_toNat_eq
    simp only [BitVec.toNat_ofNat, Nat.shiftRight_eq_div_pow]
    rw [show (2 : Nat) ^ (8 * n) = 256 ^ n by rw [pow_mul]; norm_num, Nat.add_comm,
      Nat.add_mul_div_right _ _ (by positivity)]
    norm_num [Nat.add_mul_mod_self_right]

/-- `to_be(n, from_be(B)) = B` (R11). -/
theorem toBe_fromBe (bs : List Byte) : toBe bs.length (fromBe bs) = bs := by
  induction bs with
  | nil => rfl
  | cons b bs ih =>
    simp only [List.length_cons, toBe, fromBe]
    rw [toBe_add_mul, ih]
    congr 1
    apply BitVec.eq_of_toNat_eq
    have hb := b.isLt
    have h := fromBe_lt bs
    simp only [BitVec.toNat_ofNat, Nat.shiftRight_eq_div_pow]
    rw [show (2 : Nat) ^ (8 * bs.length) = 256 ^ bs.length by rw [pow_mul]; norm_num, Nat.add_comm,
      Nat.add_mul_div_right _ _ (by positivity), Nat.div_eq_of_lt h]
    omega

theorem narrow_of_lt {n v : Nat} (h : v < 256 ^ n) : narrow n v = BitVec.ofNat 32 v := by
  rw [narrow, Nat.mod_eq_of_lt h]

end Sys2Proof.Machine
end

