-- ==== Sys2Proof/Laws/Decode.lean ====
section
/-!
SUPPORT. The fields of a command word: putting them together and taking them apart undo each other; and the decoder said once:
the words it accepts and what it reads from each.
-/
namespace Sys2Proof

theorem Fields.opc_toWord (f : Fields) : f.toWord.extractLsb' 0 8 = f.opc := by
  ext i hi
  simp only [Fields.toWord, BitVec.getElem_extractLsb', BitVec.getLsbD_append]
  simp [hi, BitVec.getLsbD_eq_getElem]

theorem Fields.ver_toWord (f : Fields) : f.toWord.extractLsb' 8 8 = f.ver := by
  ext i hi
  simp only [Fields.toWord, BitVec.getElem_extractLsb', BitVec.getLsbD_append]
  simp [hi, BitVec.getLsbD_eq_getElem]

theorem Fields.off_toWord (f : Fields) : f.toWord.extractLsb' 16 16 = f.off := by
  ext i hi
  simp only [Fields.toWord, BitVec.getElem_extractLsb', BitVec.getLsbD_append]
  have h1 : ¬ 16 + i < 8 := by omega
  have h2 : ¬ 16 + i - 8 < 8 := by omega
  have h3 : 16 + i - 8 - 8 = i := by omega
  simp [h1, h2, h3, hi, BitVec.getLsbD_eq_getElem]

theorem Fields.val_toWord (f : Fields) : f.toWord.extractLsb' 32 32 = f.val := by
  ext i hi
  simp only [Fields.toWord, BitVec.getElem_extractLsb', BitVec.getLsbD_append]
  have h1 : ¬ 32 + i < 8 := by omega
  have h2 : ¬ 32 + i - 8 < 8 := by omega
  have h3 : ¬ 32 + i - 8 - 8 < 16 := by omega
  have h4 : 32 + i - 8 - 8 - 16 = i := by omega
  simp [h1, h2, h3, h4, hi, BitVec.getLsbD_eq_getElem]

/-- The fields of a word put together from fields (R70). -/
@[simp] theorem Fields.ofWord_toWord (f : Fields) : Fields.ofWord f.toWord = f := by
  simp [Fields.ofWord, Fields.opc_toWord, Fields.ver_toWord, Fields.off_toWord, Fields.val_toWord]

/-- A word is its four fields put together (R70). -/
@[simp] theorem Fields.toWord_ofWord (cw : CommandWord) : (Fields.ofWord cw).toWord = cw := by
  apply BitVec.eq_of_getLsbD_eq
  intro i hi
  simp only [Fields.toWord, Fields.ofWord, BitVec.getLsbD_append, BitVec.getLsbD_extractLsb']
  by_cases h1 : i < 8
  · simp [h1]
  by_cases h2 : i - 8 < 8
  · simp [h1, h2, show 8 + (i - 8) = i by omega]
  by_cases h3 : i - 8 - 8 < 16
  · simp [h1, h2, h3, show 16 + (i - 8 - 8) = i by omega]
  · simp [h1, h2, h3, show 32 + (i - 8 - 8 - 16) = i by omega, show i - 8 - 8 - 16 < 32 by omega]

/-- Decoding a word put together from fields looks at those fields only. -/
theorem decode_toWord (f : Fields) : decode f.toWord = decodeFields f := by
  simp [decode]

/-- The opcode is its four subfields (R71). -/
theorem Fields.opc_parts (f : Fields) : f.opc.toNat = 16 * f.sel + 8 * f.rsv + 2 * f.wc + f.dir := by
  simp only [Fields.sel, Fields.rsv, Fields.wc, Fields.dir]
  omega

/-- The ranges of the subfields (R71). -/
theorem Fields.parts_lt (f : Fields) : f.sel < 16 ∧ f.rsv < 2 ∧ f.wc < 4 ∧ f.dir < 2 := by
  have := f.opc.isLt
  simp only [Fields.sel, Fields.rsv, Fields.wc, Fields.dir]
  omega

/-- The selectors 1 to 7 name the fixed fields, and no other selector does (R71). -/
theorem Field.ofSel_eq_none_iff (n : Nat) : Field.ofSel n = none ↔ n = 0 ∨ 8 ≤ n := by
  by_cases h : n < 8
  · interval_cases n <;> simp [Field.ofSel]
  · obtain ⟨k, rfl⟩ : ∃ k, n = k + 8 := ⟨n - 8, by omega⟩
    simp [Field.ofSel]

/-- All that the decoder accepts, and what it reads from it (R77). -/
theorem decodeParts_eq_ok_iff (sel rsv wc dir : Nat) (ver : VersionTag) (off : Offset) (val : Value) (i : Instr) :
    decodeParts sel rsv wc dir ver off val = .ok i ↔
      rsv ≠ 1 ∧
      ((sel = 0 ∧ wc ≠ 3 ∧ ver = 0#8 ∧
          (dir = 0 ∧ val = 0#32 ∧ i = primGetOf wc off ∨
           dir ≠ 0 ∧ val >>> (8 * 2 ^ wc) = 0#32 ∧ i = primSetOf wc off val)) ∨
       (∃ x, Field.ofSel sel = some x ∧ wc = 0 ∧ ver = 0#8 ∧ off = 0#16 ∧
          (dir = 0 ∧ val = 0#32 ∧ i = fieldGetOf x ∨
           dir ≠ 0 ∧ val >>> (8 * (Machine.fieldLocation x).width) = 0#32 ∧ i = fieldSetOf x val)) ∨
       (sel = 8 ∧ wc = 0 ∧ off = 0#16 ∧
          (dir = 0 ∧ val = 0#32 ∧ i = .getCommand ver ∨
           dir ≠ 0 ∧ val >>> 8 = 0#32 ∧ i = .setCommand ver (val.setWidth 8)))) := by
  have h0 : Field.ofSel 0 = none := rfl
  have h8 : Field.ofSel 8 = none := rfl
  unfold decodeParts
  cases hx : Field.ofSel sel with
  | none =>
    simp only [reduceCtorEq, false_and, exists_false, false_or]
    grind
  | some x =>
    simp only [Option.some.injEq, exists_eq_left']
    grind

end Sys2Proof
end

