-- ==== Sys2Proof/Laws/Memory.lean ====
section
/-!
SUPPORT. The laws of memory: a read after a write gives the value written, a write leaves every other byte alone, every memory
operation keeps the canonical form and the address space, and canonical memories that read alike are equal.
-/
namespace Sys2Proof.Machine

theorem Memory.read_erase (m : Memory) (a a' : Nat) :
    (m.erase a).read a' = if a' = a then Memory.unlisted else m.read a' := by
  induction m with
  | nil => simp [Memory.erase, Memory.read]
  | cons c m ih =>
    simp only [Memory.erase] at ih ⊢
    by_cases hc : c.1 = a
    · subst hc
      simp only [bne_self_eq_false, Bool.false_eq_true, not_false_eq_true, List.filter_cons_of_neg, ih,
        Memory.read]
      split <;> rfl
    · rw [List.filter_cons_of_pos (by simpa using hc)]
      simp only [Memory.read, ih]
      by_cases h : a' = c.1
      · simp [h, hc]
      · simp [h]

theorem Memory.read_insert (m : Memory) (c : Host.Cell) (a : Nat) (h : m.read c.1 = Memory.unlisted)
    (hm : ∀ d ∈ m, d.1 ≠ c.1) :
    (m.insert c).read a = if a = c.1 then c.2 else m.read a := by
  induction m with
  | nil => simp [Memory.insert, Memory.read]
  | cons d m ih =>
    have hd : d.1 ≠ c.1 := hm d (by simp)
    have hr : Memory.read m c.1 = Memory.unlisted := by
      simpa [Memory.read, Ne.symm hd] using h
    simp only [Memory.insert]
    split
    · simp [Memory.read]
    · simp only [Memory.read, ih hr (fun e he => hm e (by simp [he]))]
      by_cases h1 : a = d.1
      · simp [h1, hd]
      · simp [h1]

theorem Memory.mem_erase_ne {m : Memory} {a : Nat} {d : Host.Cell} (h : d ∈ m.erase a) : d.1 ≠ a := by
  simpa using (List.mem_filter.mp h).2

/-- Reading one byte after writing one byte. -/
theorem Memory.read_write (m : Memory) (a a' : Nat) (b : Byte) :
    (m.write a b).read a' = if a' = a then b else m.read a' := by
  unfold Memory.write
  split
  · next h => rw [Memory.read_erase, h]
  · refine (Memory.read_insert (m.erase a) (a, b) a' (by simp [Memory.read_erase]) fun d hd =>
      Memory.mem_erase_ne hd).trans ?_
    rw [Memory.read_erase]
    split <;> rfl

@[simp] theorem Memory.read_write_same (m : Memory) (a : Nat) (b : Byte) : (m.write a b).read a = b := by
  simp [Memory.read_write]

theorem Memory.read_write_other (m : Memory) {a a' : Nat} (b : Byte) (h : a' ≠ a) :
    (m.write a b).read a' = m.read a' := by
  simp [Memory.read_write, h]

theorem Memory.wf_iff (m : Memory) :
    m.wf = true ↔ (m.map Prod.fst).Pairwise (· < ·) ∧ ∀ c ∈ m, c.2 ≠ Memory.unlisted := by
  simp [Memory.wf]

theorem Memory.wf_erase {m : Memory} (h : m.wf = true) (a : Nat) : (m.erase a).wf = true := by
  rw [Memory.wf_iff] at h ⊢
  exact ⟨h.1.sublist (List.filter_sublist.map _), fun c hc => h.2 c (List.mem_filter.mp hc).1⟩

theorem Memory.mem_insert {m : Memory} {c d : Host.Cell} : d ∈ m.insert c ↔ d = c ∨ d ∈ m := by
  induction m with
  | nil => simp [Memory.insert]
  | cons e m ih =>
    simp only [Memory.insert]
    split
    · simp
    · simp only [List.mem_cons, ih]
      tauto

theorem Memory.wf_insert {m : Memory} (h : m.wf = true) {c : Host.Cell} (hc : c.2 ≠ Memory.unlisted)
    (hm : ∀ d ∈ m, d.1 ≠ c.1) : (m.insert c).wf = true := by
  rw [Memory.wf_iff] at h ⊢
  refine ⟨?_, fun d hd => ?_⟩
  · have hp := h.1
    clear h
    induction m with
    | nil => simp [Memory.insert]
    | cons d m ih =>
      have hd := hm d (by simp)
      simp only [List.map_cons, List.pairwise_cons] at hp
      simp only [Memory.insert]
      split
      · next hlt =>
        simp only [List.map_cons, List.pairwise_cons, List.mem_cons, forall_eq_or_imp]
        exact ⟨⟨hlt, fun x hx => lt_trans hlt (hp.1 x hx)⟩, hp.1, hp.2⟩
      · next hge =>
        simp only [List.map_cons, List.pairwise_cons]
        refine ⟨fun x hx => ?_, ih (fun e he => hm e (by simp [he])) hp.2⟩
        obtain ⟨e, he, rfl⟩ := List.mem_map.mp hx
        rcases Memory.mem_insert.mp he with rfl | he
        · omega
        · exact hp.1 _ (List.mem_map_of_mem he)
  · rcases Memory.mem_insert.mp hd with rfl | hd
    · exact hc
    · exact h.2 d hd

/-- A write keeps the canonical form. -/
theorem Memory.wf_write {m : Memory} (h : m.wf = true) (a : Nat) (b : Byte) : (m.write a b).wf = true := by
  unfold Memory.write
  split
  · exact Memory.wf_erase h a
  · next hb => exact Memory.wf_insert (Memory.wf_erase h a) hb fun d hd => Memory.mem_erase_ne hd

theorem Memory.inSpace_iff (m : Memory) (c : Config) : m.inSpace c = true ↔ ∀ d ∈ m, d.1 < c.addressSpace := by
  simp [Memory.inSpace]

/-- A write to an address that exists keeps every listed address one that exists. -/
theorem Memory.inSpace_write {m : Memory} {c : Config} (h : m.inSpace c = true) {a : Nat} (ha : a < c.addressSpace) (b : Byte) :
    (m.write a b).inSpace c = true := by
  rw [Memory.inSpace_iff] at h ⊢
  unfold Memory.write
  split
  · exact fun c hc => h c (List.mem_filter.mp hc).1
  · intro c hc
    rcases Memory.mem_insert.mp hc with rfl | hc
    · exact ha
    · exact h c (List.mem_filter.mp hc).1

theorem memWrite_wf {m : Memory} (h : m.wf = true) (a : Nat) (bs : List Byte) : (memWrite m a bs).wf = true := by
  induction bs generalizing m a with
  | nil => exact h
  | cons b bs ih => exact ih (Memory.wf_write h a b) (a + 1)

theorem memWrite_inSpace {m : Memory} {c : Config} (h : m.inSpace c = true) (a : Nat) (bs : List Byte)
    (ha : a + bs.length ≤ c.addressSpace) : (memWrite m a bs).inSpace c = true := by
  induction bs generalizing m a with
  | nil => exact h
  | cons b bs ih =>
    simp only [List.length_cons] at ha
    exact ih (Memory.inSpace_write h (by omega) b) (a + 1) (by omega)

/-- What one address reads as after `MemWrite(a, n, B)` (R11): the byte written there, or what it read as before. -/
theorem read_memWrite (m : Memory) (a : Nat) (bs : List Byte) (a' : Nat) :
    (memWrite m a bs).read a' =
      if h : a ≤ a' ∧ a' - a < bs.length then bs[a' - a]'h.2 else m.read a' := by
  induction bs generalizing m a with
  | nil => simp [memWrite]
  | cons b bs ih =>
    simp only [memWrite, ih, Memory.read_write]
    by_cases h0 : a' = a
    · subst h0
      simp
    · by_cases h1 : a ≤ a'
      · have e : a' - a = a' - (a + 1) + 1 := by omega
        have h2 : a + 1 ≤ a' := by omega
        simp only [h2, true_and, h1, List.length_cons, h0, if_false]
        by_cases h3 : a' - (a + 1) < bs.length
        · rw [dif_pos h3, dif_pos (by omega)]
          simp [e]
        · rw [dif_neg h3, dif_neg (by omega)]
      · have h2 : ¬ a + 1 ≤ a' := by omega
        simp [h1, h2, h0]

/-- Outside the bytes written, `MemWrite` changes nothing (R11). -/
theorem read_memWrite_outside (m : Memory) (a : Nat) (bs : List Byte) (a' : Nat)
    (h : a' < a ∨ a + bs.length ≤ a') : (memWrite m a bs).read a' = m.read a' := by
  rw [read_memWrite, dif_neg (by omega)]

@[simp] theorem length_memRead (m : Memory) (a n : Nat) : (memRead m a n).length = n := by
  induction n generalizing a with
  | zero => rfl
  | succ n ih => simp [memRead, ih]

/-- `MemRead` gives back what `MemWrite` wrote. -/
theorem memRead_memWrite (m : Memory) (a : Nat) (bs : List Byte) :
    memRead (memWrite m a bs) a bs.length = bs := by
  induction bs generalizing m a with
  | nil => rfl
  | cons b bs ih =>
    simp only [memRead, memWrite, List.length_cons, ih]
    rw [read_memWrite_outside _ _ _ _ (by omega), Memory.read_write_same]

/-- `MemRead` reads only its range: memories that agree there give the same bytes. -/
theorem memRead_congr {m m' : Memory} {a n : Nat} (h : ∀ k, a ≤ k → k < a + n → m.read k = m'.read k) :
    memRead m a n = memRead m' a n := by
  induction n generalizing a with
  | zero => rfl
  | succ n ih =>
    simp only [memRead]
    rw [h a le_rfl (by omega), ih fun k h1 h2 => h k (by omega) (by omega)]

theorem Memory.read_of_forall_lt {m : Memory} {a : Nat} (h : ∀ c ∈ m, a < c.1) : m.read a = Memory.unlisted := by
  induction m with
  | nil => rfl
  | cons c m ih =>
    have := h c (by simp)
    simp only [Memory.read, if_neg (Nat.ne_of_lt this)]
    exact ih fun d hd => h d (by simp [hd])

/-- Canonical memories that read alike at every address are equal. -/
theorem Memory.ext_of_wf {m m' : Memory} (h : m.wf = true) (h' : m'.wf = true)
    (hr : ∀ a, m.read a = m'.read a) : m = m' := by
  induction m generalizing m' with
  | nil =>
    cases m' with
    | nil => rfl
    | cons c m' =>
      have := hr c.1
      rw [Memory.wf_iff] at h'
      exact absurd (by simpa [Memory.read] using this.symm) (h'.2 c (by simp))
  | cons c m ih =>
    cases m' with
    | nil =>
      have := hr c.1
      rw [Memory.wf_iff] at h
      exact absurd (by simpa [Memory.read] using this) (h.2 c (by simp))
    | cons c' m' =>
      rw [Memory.wf_iff] at h h'
      simp only [List.map_cons, List.pairwise_cons, List.mem_map, forall_exists_index, and_imp,
        forall_apply_eq_imp_iff₂, List.mem_cons, forall_eq_or_imp] at h h'
      have hlt : ∀ {d : Host.Cell} {l : Memory}, (∀ e ∈ l, d.1 < e.1) → l.read d.1 = Memory.unlisted :=
        fun hl => Memory.read_of_forall_lt hl
      have key : c.1 = c'.1 := by
        rcases lt_trichotomy c.1 c'.1 with g | g | g
        · have := hr c.1
          simp only [Memory.read, if_true, if_neg (Nat.ne_of_lt g)] at this
          rw [Memory.read_of_forall_lt (fun e he => lt_trans g (h'.1.1 e he))] at this
          exact absurd this h.2.1
        · exact g
        · have := hr c'.1
          simp only [Memory.read, if_true, if_neg (Nat.ne_of_lt g)] at this
          rw [Memory.read_of_forall_lt (fun e he => lt_trans g (h.1.1 e he))] at this
          exact absurd this.symm h'.2.1
      have hv : c.2 = c'.2 := by
        have := hr c.1
        simpa [Memory.read, key] using this
      have hc : c = c' := Prod.ext key hv
      subst hc
      congr 1
      refine ih (m' := m') ?_ ?_ fun a => ?_
      · rw [Memory.wf_iff]
        exact ⟨h.1.2, h.2.2⟩
      · rw [Memory.wf_iff]
        exact ⟨h'.1.2, h'.2.2⟩
      · have := hr a
        by_cases g : a = c.1
        · subst g
          rw [hlt h.1.1, hlt h'.1.1]
        · simpa [Memory.read, g] using this

end Sys2Proof.Machine
end

