-- ==== Sys2Proof/Laws/State.lean ====
section
/-!
SUPPORT. One lemma per field per update of the state, so that no proof unfolds a record update.
-/
namespace Sys2Proof.Machine

@[simp] theorem State.withSideband_cfg (s : State) (b : Sideband) : (s.withSideband b).cfg = s.cfg := rfl
@[simp] theorem State.withSideband_mem (s : State) (b : Sideband) : (s.withSideband b).mem = s.mem := rfl
@[simp] theorem State.withSideband_sideband (s : State) (b : Sideband) : (s.withSideband b).sideband = b := rfl
@[simp] theorem State.withSideband_rstN (s : State) (b : Sideband) : (s.withSideband b).rstN = s.rstN := rfl
@[simp] theorem State.withSideband_flight (s : State) (b : Sideband) : (s.withSideband b).flight = s.flight := rfl
@[simp] theorem State.withSideband_abandoned (s : State) (b : Sideband) : (s.withSideband b).abandoned = s.abandoned := rfl
@[simp] theorem State.withSideband_memPort (s : State) (b : Sideband) : (s.withSideband b).memPort = s.memPort := rfl
@[simp] theorem State.withSideband_respPort (s : State) (b : Sideband) : (s.withSideband b).respPort = s.respPort := rfl
@[simp] theorem State.withSideband_responses (s : State) (b : Sideband) : (s.withSideband b).responses = s.responses := rfl
@[simp] theorem State.withSideband_seq (s : State) (b : Sideband) : (s.withSideband b).seq = s.seq := rfl
@[simp] theorem State.withSideband_faults (s : State) (b : Sideband) : (s.withSideband b).faults = s.faults := rfl
@[simp] theorem State.withSideband_inputs (s : State) (b : Sideband) : (s.withSideband b).inputs = s.inputs := rfl
@[simp] theorem State.withSideband_fresh (s : State) (b : Sideband) : (s.withSideband b).fresh = s.fresh := rfl

@[simp] theorem State.answered_cfg (s : State) (st : Status) (v : Value) : (s.answered st v).cfg = s.cfg := rfl
@[simp] theorem State.answered_mem (s : State) (st : Status) (v : Value) : (s.answered st v).mem = s.mem := rfl
@[simp] theorem State.answered_sideband (s : State) (st : Status) (v : Value) : (s.answered st v).sideband = s.sideband := rfl
@[simp] theorem State.answered_rstN (s : State) (st : Status) (v : Value) : (s.answered st v).rstN = s.rstN := rfl
@[simp] theorem State.answered_flight (s : State) (st : Status) (v : Value) : (s.answered st v).flight = s.flight := rfl
@[simp] theorem State.answered_abandoned (s : State) (st : Status) (v : Value) : (s.answered st v).abandoned = s.abandoned := rfl
@[simp] theorem State.answered_memPort (s : State) (st : Status) (v : Value) : (s.answered st v).memPort = s.memPort := rfl
@[simp] theorem State.answered_respPort (s : State) (st : Status) (v : Value) : (s.answered st v).respPort = s.respPort := rfl
@[simp] theorem State.answered_responses (s : State) (st : Status) (v : Value) : (s.answered st v).responses = s.responses ++ [responseWord st v] := rfl
@[simp] theorem State.answered_seq (s : State) (st : Status) (v : Value) : (s.answered st v).seq = s.seq + 1 := rfl
@[simp] theorem State.answered_faults (s : State) (st : Status) (v : Value) : (s.answered st v).faults = s.faults := rfl
@[simp] theorem State.answered_inputs (s : State) (st : Status) (v : Value) : (s.answered st v).inputs = s.inputs := rfl
@[simp] theorem State.answered_fresh (s : State) (st : Status) (v : Value) : (s.answered st v).fresh = s.fresh := rfl

@[simp] theorem resetFall_cfg (s : State) : (resetFall s).cfg = s.cfg := rfl
@[simp] theorem resetFall_mem (s : State) : (resetFall s).mem = s.mem := rfl
@[simp] theorem resetFall_sideband (s : State) : (resetFall s).sideband = s.sideband := rfl
@[simp] theorem resetFall_rstN (s : State) : (resetFall s).rstN = false := rfl
@[simp] theorem resetFall_flight (s : State) : (resetFall s).flight = none := rfl
@[simp] theorem resetFall_abandoned (s : State) : (resetFall s).abandoned = s.abandoned ++ s.unanswered := rfl
@[simp] theorem resetFall_memPort (s : State) : (resetFall s).memPort = none := rfl
@[simp] theorem resetFall_respPort (s : State) : (resetFall s).respPort = none := rfl
@[simp] theorem resetFall_responses (s : State) : (resetFall s).responses = [] := rfl
@[simp] theorem resetFall_seq (s : State) : (resetFall s).seq = 0 := rfl
@[simp] theorem resetFall_faults (s : State) : (resetFall s).faults = s.faults := rfl
@[simp] theorem resetFall_inputs (s : State) : (resetFall s).inputs = s.inputs := rfl
@[simp] theorem resetFall_fresh (s : State) : (resetFall s).fresh = s.fresh := rfl

@[simp] theorem resetRise_cfg (s : State) : (resetRise s).cfg = s.cfg := rfl
@[simp] theorem resetRise_mem (s : State) : (resetRise s).mem = s.mem := rfl
@[simp] theorem resetRise_sideband (s : State) : (resetRise s).sideband = s.sideband := rfl
@[simp] theorem resetRise_rstN (s : State) : (resetRise s).rstN = true := rfl
@[simp] theorem resetRise_flight (s : State) : (resetRise s).flight = s.flight := rfl
@[simp] theorem resetRise_abandoned (s : State) : (resetRise s).abandoned = s.abandoned := rfl
@[simp] theorem resetRise_memPort (s : State) : (resetRise s).memPort = s.memPort := rfl
@[simp] theorem resetRise_respPort (s : State) : (resetRise s).respPort = s.respPort := rfl
@[simp] theorem resetRise_responses (s : State) : (resetRise s).responses = s.responses := rfl
@[simp] theorem resetRise_seq (s : State) : (resetRise s).seq = s.seq := rfl
@[simp] theorem resetRise_faults (s : State) : (resetRise s).faults = s.faults := rfl
@[simp] theorem resetRise_inputs (s : State) : (resetRise s).inputs = s.inputs := rfl
@[simp] theorem resetRise_fresh (s : State) : (resetRise s).fresh = s.fresh := rfl

@[simp] theorem answerIllegal_cfg (s : State) : (answerIllegal s).cfg = s.cfg := rfl
@[simp] theorem answerIllegal_mem (s : State) : (answerIllegal s).mem = s.mem := rfl
@[simp] theorem answerIllegal_sideband (s : State) : (answerIllegal s).sideband = s.sideband := rfl
@[simp] theorem answerIllegal_rstN (s : State) : (answerIllegal s).rstN = s.rstN := rfl
@[simp] theorem answerIllegal_flight (s : State) : (answerIllegal s).flight = s.flight := rfl
@[simp] theorem answerIllegal_abandoned (s : State) : (answerIllegal s).abandoned = s.abandoned := rfl
@[simp] theorem answerIllegal_memPort (s : State) : (answerIllegal s).memPort = s.memPort := rfl
@[simp] theorem answerIllegal_respPort (s : State) : (answerIllegal s).respPort = s.respPort := rfl
@[simp] theorem answerIllegal_responses (s : State) : (answerIllegal s).responses = s.responses ++ [responseWord .illegal 0] := rfl
@[simp] theorem answerIllegal_seq (s : State) : (answerIllegal s).seq = s.seq + 1 := rfl
@[simp] theorem answerIllegal_faults (s : State) : (answerIllegal s).faults = s.faults := rfl
@[simp] theorem answerIllegal_inputs (s : State) : (answerIllegal s).inputs = s.inputs := rfl
@[simp] theorem answerIllegal_fresh (s : State) : (answerIllegal s).fresh = s.fresh := rfl

end Sys2Proof.Machine
end

