-- ==== Sys2Proof/Laws/Ops.lean ====
section
/-!
SUPPORT. What the shared operations do, said once: `blocked`, `complete`, `perform`, and `exec` in terms of `perform`.
-/
namespace Sys2Proof.Machine

/-- Every meaning performs its command's access. -/
theorem exec_eq_perform (i : Instr) (s : State) : exec i s = perform i (accessOf s.cfg i) s := by
  cases i <;> rfl

theorem fieldMinLen_covers (f : Field) : (fieldLocation f).off + (fieldLocation f).width ≤ fieldMinLen f := by
  cases f <;> decide

theorem flowModMinLen_eq (c : Config) (ver : VersionTag) :
    flowModMinLen c ver = (flowModLocation c ver).off + (flowModLocation c ver).width := by
  simp only [flowModMinLen, flowModLocation]
  split <;> rfl

/-- The contract of an access is that of its command (R50, R51, R52). -/
theorem accessOf_minLen (c : Config) (i : Instr) : (accessOf c i).minLen = leastLen c i := by
  cases i <;> rfl

/-- `MINLEN` is never less than `offset + width` (R51). -/
theorem accessOf_covers (c : Config) (i : Instr) :
    (accessOf c i).loc.off + (accessOf c i).loc.width ≤ (accessOf c i).minLen := by
  cases i <;> first
    | exact le_rfl
    | exact fieldMinLen_covers _
    | exact (flowModMinLen_eq _ _).ge

/-- A set stores exactly the bytes of its range (R47). -/
theorem accessOf_store_length {c : Config} {i : Instr} {bs : List Byte} (h : (accessOf c i).action = .store bs) :
    bs.length = (accessOf c i).loc.width := by
  cases i <;> simp_all [accessOf, primGet, primSet, fieldGet, fieldSet, commandGet, commandSet] <;>
    subst h <;> simp

/-- What `blocked` answers, whole (R176). -/
theorem blocked_cases (c : Config) (i : Instr) (x : Access) (b : Sideband) :
    (b.bufLen c < x.minLen ∧ blocked c i x b = some (.outOfContract i x.loc.off x.loc.width (b.bufLen c))) ∨
    (x.minLen ≤ b.bufLen c ∧ c.addressSpace < b.address x.loc.off + x.loc.width ∧
      blocked c i x b = some (.noSuchAddress i (b.address x.loc.off + x.loc.width - 1))) ∨
    (x.minLen ≤ b.bufLen c ∧ b.address x.loc.off + x.loc.width ≤ c.addressSpace ∧ blocked c i x b = none) := by
  unfold blocked
  split
  · next h => exact .inl ⟨h, rfl⟩
  · next h =>
    split
    · next h2 => exact .inr (.inl ⟨by omega, h2, rfl⟩)
    · next h2 => exact .inr (.inr ⟨by omega, by omega, rfl⟩)

theorem blocked_eq_none_iff (c : Config) (i : Instr) (x : Access) (b : Sideband) :
    blocked c i x b = none ↔ x.minLen ≤ b.bufLen c ∧ b.address x.loc.off + x.loc.width ≤ c.addressSpace := by
  rcases blocked_cases c i x b with ⟨h, e⟩ | ⟨h, h2, e⟩ | ⟨h, h2, e⟩ <;> rw [e] <;> simp <;> omega

theorem blocked_of_short {c : Config} {i : Instr} {x : Access} {b : Sideband} (h : b.bufLen c < x.minLen) :
    blocked c i x b = some (.outOfContract i x.loc.off x.loc.width (b.bufLen c)) := by
  simp [blocked, h]

/-- A command that meets its contract is not blocked (R50, R51, R48). -/
theorem blocked_of_inContract {c : Config} {i : Instr} {b : Sideband} (h : InContract c i b) :
    blocked c i (accessOf c i) b = none := by
  obtain ⟨h1, h2⟩ := h
  have h3 := accessOf_covers c i
  rw [accessOf_minLen] at h3
  rw [blocked_eq_none_iff, accessOf_minLen]
  refine ⟨h1, ?_⟩
  unfold Sideband.fits at h2
  unfold Sideband.address
  omega

/-- What `perform` answers, whole. -/
theorem perform_cases (i : Instr) (x : Access) (s : State) :
    (∃ f, blocked s.cfg i x s.sideband = some f ∧ perform i x s = .fault f) ∨
    (blocked s.cfg i x s.sideband = none ∧ perform i x s = .next (complete x s)) := by
  unfold perform
  cases h : blocked s.cfg i x s.sideband with
  | none => exact .inr ⟨rfl, rfl⟩
  | some f => exact .inl ⟨f, rfl, rfl⟩

/-- A command in contract completes (R171). -/
theorem exec_of_inContract {i : Instr} {s : State} (h : InContract s.cfg i s.sideband) :
    exec i s = .next (complete (accessOf s.cfg i) s) := by
  rw [exec_eq_perform, perform, blocked_of_inContract h]

/-- A command on a buffer too short for it is the fault of R172. -/
theorem exec_of_short {i : Instr} {s : State} (h : s.bufLen < leastLen s.cfg i) :
    exec i s = .fault (.outOfContract i (accessOf s.cfg i).loc.off (accessOf s.cfg i).loc.width s.bufLen) := by
  rw [exec_eq_perform, perform, blocked_of_short (by rwa [accessOf_minLen])]

/-- If a command answers a next state, it was not blocked, and that state is `complete`'s. -/
theorem exec_eq_next {i : Instr} {s t : State} (h : exec i s = .next t) :
    blocked s.cfg i (accessOf s.cfg i) s.sideband = none ∧ t = complete (accessOf s.cfg i) s := by
  rw [exec_eq_perform] at h
  rcases perform_cases i (accessOf s.cfg i) s with ⟨f, -, e⟩ | ⟨e0, e⟩
  · rw [e] at h
    cases h
  · rw [e] at h
    cases h
    exact ⟨e0, rfl⟩

/-- No command is refused. -/
theorem exec_ne_refused (i : Instr) (s : State) (r : Refusal) : exec i s ≠ .refused r := by
  rw [exec_eq_perform]
  rcases perform_cases i (accessOf s.cfg i) s with ⟨f, -, e⟩ | ⟨-, e⟩ <;> rw [e] <;> simp

@[simp] theorem complete_cfg (x : Access) (s : State) : (complete x s).cfg = s.cfg := rfl
@[simp] theorem complete_sideband (x : Access) (s : State) : (complete x s).sideband = s.sideband := rfl
@[simp] theorem complete_rstN (x : Access) (s : State) : (complete x s).rstN = s.rstN := rfl
@[simp] theorem complete_flight (x : Access) (s : State) : (complete x s).flight = s.flight := rfl
@[simp] theorem complete_abandoned (x : Access) (s : State) : (complete x s).abandoned = s.abandoned := rfl
@[simp] theorem complete_memPort (x : Access) (s : State) : (complete x s).memPort = s.memPort := rfl
@[simp] theorem complete_respPort (x : Access) (s : State) : (complete x s).respPort = s.respPort := rfl
@[simp] theorem complete_faults (x : Access) (s : State) : (complete x s).faults = s.faults := rfl
@[simp] theorem complete_inputs (x : Access) (s : State) : (complete x s).inputs = s.inputs := rfl
@[simp] theorem complete_fresh (x : Access) (s : State) : (complete x s).fresh = s.fresh := rfl
@[simp] theorem complete_seq (x : Access) (s : State) : (complete x s).seq = s.seq + 1 := rfl
@[simp] theorem complete_mem (x : Access) (s : State) : (complete x s).mem = completedMem x s := rfl
@[simp] theorem complete_responses (x : Access) (s : State) :
    (complete x s).responses = s.responses ++ [responseWord .ok (completedValue x s)] := rfl

theorem completedMem_load {x : Access} {n : Nat} (h : x.action = .load n) (s : State) : completedMem x s = s.mem := by
  simp [completedMem, h]

theorem completedMem_store {x : Access} {bs : List Byte} (h : x.action = .store bs) (s : State) :
    completedMem x s = memWrite s.mem (s.sideband.address x.loc.off) bs := by
  simp [completedMem, h]

theorem completedValue_load {x : Access} {n : Nat} (h : x.action = .load n) (s : State) :
    completedValue x s = loadedValue n (memRead s.mem (s.sideband.address x.loc.off) x.loc.width) := by
  simp [completedValue, h]

theorem completedValue_store {x : Access} {bs : List Byte} (h : x.action = .store bs) (s : State) :
    completedValue x s = 0 := by
  simp [completedValue, h]

/-- Outside the bytes an access stores, its memory reads as before (R108). -/
theorem read_completedMem_outside {x : Access} {s : State} {a : Nat}
    (h : ∀ bs, x.action = .store bs →
      a < s.sideband.address x.loc.off ∨ s.sideband.address x.loc.off + bs.length ≤ a) :
    (completedMem x s).read a = s.mem.read a := by
  unfold completedMem
  split
  · rfl
  · next bs e => exact read_memWrite_outside _ _ _ _ (h bs e)

@[simp] theorem statusField_responseWord (st : Status) (v : Value) : statusField (responseWord st v) = st.code := by
  ext i hi
  simp only [statusField, responseWord, BitVec.getElem_extractLsb', BitVec.getLsbD_append]
  simp [hi, BitVec.getLsbD_eq_getElem]

@[simp] theorem valField_responseWord (st : Status) (v : Value) : valField (responseWord st v) = v := by
  ext i hi
  simp only [valField, responseWord, BitVec.getElem_extractLsb', BitVec.getLsbD_append]
  simp [hi, BitVec.getLsbD_eq_getElem]

end Sys2Proof.Machine
end

