-- ==== Sys2Proof/Laws/PerInstr.lean ====
section
/-!
SUPPORT. The family WellFormedEncoding: the fields the encoder gives a command are well-formed (R72): its opcode selects a format,
and every bit that is no operand of that format is 0. One lemma per command.
-/
namespace Sys2Proof.Laws.WellFormedEncoding

/-- The fields of the command's word are well-formed (R72). -/
def Statement (i : Instr) : Prop := (encodeFields i).wellFormed = true

/-- A u8 operand leaves `val[31:8]` zero (R74). -/
theorem byte_operand (v : Byte) : v.setWidth 32 >>> 8 = 0#32 := by
  apply BitVec.eq_of_toNat_eq
  have := v.isLt
  simp
  omega

/-- A u16 operand leaves `val[31:16]` zero (R74). -/
theorem half_operand (v : Half) : v.setWidth 32 >>> 16 = 0#32 := by
  apply BitVec.eq_of_toNat_eq
  have := v.isLt
  simp
  omega

/-- A u32 operand leaves no bit of `val` that must be zero (R74). -/
theorem value_operand (v : Value) : v >>> 32 = 0#32 := by
  apply BitVec.eq_of_toNat_eq
  have := v.isLt
  simp
  omega

/-- Fields are well-formed if the opcode selects a format and every bit that is no operand of it is 0 (R72). -/
theorem legal {o : BitVec 8} {ver : BitVec 8} {off : BitVec 16} {val : BitVec 32} (fmt : Format)
    (hf : (Fields.mk o 0 0 0).format = some fmt) (hv : fmt.takesVer = true ∨ ver = 0#8)
    (ho : fmt.takesOff = true ∨ off = 0#16) (hz : val >>> fmt.valBits = 0#32) :
    (Fields.mk o ver off val).wellFormed = true := by
  have e : (Fields.mk o ver off val).format = some fmt := hf
  simp [Fields.wellFormed, e, Fields.mbzOk, hv, ho, hz]

theorem getU8 (off : Offset) : Statement (.getU8 off) :=
  legal .pg (by decide) (.inr rfl) (.inl rfl) rfl
theorem setU8 (off : Offset) (val : Byte) : Statement (.setU8 off val) :=
  legal (.ps 1) (by decide) (.inr rfl) (.inl rfl) (byte_operand val)
theorem getU16 (off : Offset) : Statement (.getU16 off) :=
  legal .pg (by decide) (.inr rfl) (.inl rfl) rfl
theorem setU16 (off : Offset) (val : Half) : Statement (.setU16 off val) :=
  legal (.ps 2) (by decide) (.inr rfl) (.inl rfl) (half_operand val)
theorem getU32 (off : Offset) : Statement (.getU32 off) :=
  legal .pg (by decide) (.inr rfl) (.inl rfl) rfl
theorem setU32 (off : Offset) (val : Value) : Statement (.setU32 off val) :=
  legal (.ps 4) (by decide) (.inr rfl) (.inl rfl) (value_operand val)
theorem getVersion : Statement .getVersion :=
  legal .fg (by decide) (.inr rfl) (.inr rfl) rfl
theorem setVersion (val : Byte) : Statement (.setVersion val) :=
  legal (.fs 1) (by decide) (.inr rfl) (.inr rfl) (byte_operand val)
theorem getType : Statement .getType :=
  legal .fg (by decide) (.inr rfl) (.inr rfl) rfl
theorem setType (val : Byte) : Statement (.setType val) :=
  legal (.fs 1) (by decide) (.inr rfl) (.inr rfl) (byte_operand val)
theorem getLength : Statement .getLength :=
  legal .fg (by decide) (.inr rfl) (.inr rfl) rfl
theorem setLength (val : Half) : Statement (.setLength val) :=
  legal (.fs 2) (by decide) (.inr rfl) (.inr rfl) (half_operand val)
theorem getXid : Statement .getXid :=
  legal .fg (by decide) (.inr rfl) (.inr rfl) rfl
theorem setXid (val : Value) : Statement (.setXid val) :=
  legal (.fs 4) (by decide) (.inr rfl) (.inr rfl) (value_operand val)
theorem getStatsType : Statement .getStatsType :=
  legal .fg (by decide) (.inr rfl) (.inr rfl) rfl
theorem setStatsType (val : Half) : Statement (.setStatsType val) :=
  legal (.fs 2) (by decide) (.inr rfl) (.inr rfl) (half_operand val)
theorem getExperimenterId : Statement .getExperimenterId :=
  legal .fg (by decide) (.inr rfl) (.inr rfl) rfl
theorem setExperimenterId (val : Value) : Statement (.setExperimenterId val) :=
  legal (.fs 4) (by decide) (.inr rfl) (.inr rfl) (value_operand val)
theorem getExperimenterSubtype : Statement .getExperimenterSubtype :=
  legal .fg (by decide) (.inr rfl) (.inr rfl) rfl
theorem setExperimenterSubtype (val : Value) : Statement (.setExperimenterSubtype val) :=
  legal (.fs 4) (by decide) (.inr rfl) (.inr rfl) (value_operand val)
theorem getCommand (ver : VersionTag) : Statement (.getCommand ver) :=
  legal .vg (by decide) (.inl rfl) (.inr rfl) rfl
theorem setCommand (ver : VersionTag) (val : Byte) : Statement (.setCommand ver val) :=
  legal .vs (by decide) (.inl rfl) (.inr rfl) (byte_operand val)

end Sys2Proof.Laws.WellFormedEncoding
end

