-- ==== Sys2Proof/Laws/Ports.lean ====
section
/-!
SUPPORT. What a step can do, said once: the port-level operations, the inputs and `step`, each with everything it may answer.
-/
namespace Sys2Proof.Machine

@[simp] theorem offerNext_cfg (f : Flight) (s : State) : (offerNext f s).cfg = s.cfg := by
  unfold offerNext
  split
  · rfl
  · split <;> rfl
@[simp] theorem offerNext_mem (f : Flight) (s : State) : (offerNext f s).mem = s.mem := by
  unfold offerNext
  split
  · rfl
  · split <;> rfl
@[simp] theorem offerNext_sideband (f : Flight) (s : State) : (offerNext f s).sideband = s.sideband := by
  unfold offerNext
  split
  · rfl
  · split <;> rfl
@[simp] theorem offerNext_abandoned (f : Flight) (s : State) : (offerNext f s).abandoned = s.abandoned := by
  unfold offerNext
  split
  · rfl
  · split <;> rfl
@[simp] theorem offerNext_rstN (f : Flight) (s : State) : (offerNext f s).rstN = s.rstN := by
  unfold offerNext
  split
  · rfl
  · split <;> rfl
@[simp] theorem offerNext_responses (f : Flight) (s : State) : (offerNext f s).responses = s.responses := by
  unfold offerNext
  split
  · rfl
  · split <;> rfl
@[simp] theorem offerNext_seq (f : Flight) (s : State) : (offerNext f s).seq = s.seq := by
  unfold offerNext
  split
  · rfl
  · split <;> rfl
@[simp] theorem offerNext_faults (f : Flight) (s : State) : (offerNext f s).faults = s.faults := by
  unfold offerNext
  split
  · rfl
  · split <;> rfl
@[simp] theorem offerNext_inputs (f : Flight) (s : State) : (offerNext f s).inputs = s.inputs := by
  unfold offerNext
  split
  · rfl
  · split <;> rfl

@[simp] theorem goOn_cfg (f : Flight) (s : State) : (goOn f s).cfg = s.cfg := by
  unfold goOn
  split
  · rfl
  · exact offerNext_cfg f s
@[simp] theorem goOn_mem (f : Flight) (s : State) : (goOn f s).mem = s.mem := by
  unfold goOn
  split
  · rfl
  · exact offerNext_mem f s
@[simp] theorem goOn_sideband (f : Flight) (s : State) : (goOn f s).sideband = s.sideband := by
  unfold goOn
  split
  · rfl
  · exact offerNext_sideband f s
@[simp] theorem goOn_abandoned (f : Flight) (s : State) : (goOn f s).abandoned = s.abandoned := by
  unfold goOn
  split
  · rfl
  · exact offerNext_abandoned f s
@[simp] theorem goOn_rstN (f : Flight) (s : State) : (goOn f s).rstN = s.rstN := by
  unfold goOn
  split
  · rfl
  · exact offerNext_rstN f s
@[simp] theorem goOn_responses (f : Flight) (s : State) : (goOn f s).responses = s.responses := by
  unfold goOn
  split
  · rfl
  · exact offerNext_responses f s
@[simp] theorem goOn_seq (f : Flight) (s : State) : (goOn f s).seq = s.seq := by
  unfold goOn
  split
  · rfl
  · exact offerNext_seq f s
@[simp] theorem goOn_faults (f : Flight) (s : State) : (goOn f s).faults = s.faults := by
  unfold goOn
  split
  · rfl
  · exact offerNext_faults f s
@[simp] theorem goOn_inputs (f : Flight) (s : State) : (goOn f s).inputs = s.inputs := by
  unfold goOn
  split
  · rfl
  · exact offerNext_inputs f s

/-- Everything `offerNext` does: it offers one of the remaining transactions; or, none remaining, the response if no read is
unanswered; or, reads unanswered, it waits. -/
theorem offerNext_cases (f : Flight) (s : State) :
    (∃ k t, f.todo[k]? = some t ∧
      offerNext f s =
        { s with flight := some { f with todo := f.todo.eraseIdx k }, memPort := some t, fresh := s.fresh + 1 }) ∨
    (f.todo = [] ∧ f.unanswered = [] ∧
      offerNext f s = { s with flight := some f, respPort := some (responseOf s.cfg f) }) ∨
    (f.todo = [] ∧ f.unanswered ≠ [] ∧ offerNext f s = { s with flight := some f }) := by
  unfold offerNext
  split
  · next t h => exact .inl ⟨_, t, h, rfl⟩
  · next h =>
    have h0 : f.todo = [] := by
      by_contra h0
      have := Nat.mod_lt (Config.nextByte s.fresh) (List.length_pos_iff.mpr h0)
      simp at h
      omega
    split
    · next h1 => exact .inr (.inl ⟨h0, h1, rfl⟩)
    · next h1 => exact .inr (.inr ⟨h0, h1, rfl⟩)

/-- Everything `goOn` does. -/
theorem goOn_cases (f : Flight) (s : State) :
    (s.memPort ≠ none ∧ goOn f s = { s with flight := some f }) ∨ (s.memPort = none ∧ goOn f s = offerNext f s) := by
  unfold goOn
  cases h : s.memPort with
  | none => simp
  | some t => simp

/-- Everything the request handshake does (R87, R172, R173, R176). -/
theorem acceptRequest_cases (r : Request) (s : State) :
    (∃ e, decode r.word = .error e ∧
      acceptRequest r s = .next (offerNext (newFlight r none []) (s.withSideband r.side))) ∨
    (∃ i, decode r.word = .ok i ∧ blocked s.cfg i (accessOf s.cfg i) r.side = none ∧
      acceptRequest r s =
        .next (offerNext (newFlight r (some i) (transactions (accessOf s.cfg i) r.side)) (s.withSideband r.side))) ∨
    (∃ i f, decode r.word = .ok i ∧ blocked s.cfg i (accessOf s.cfg i) r.side = some f ∧
      ((s.cfg.debugAssert = true ∧ (∃ j o w l, f = .outOfContract j o w l) ∧
          acceptRequest r s = .next { s.withSideband r.side with
            flight := some (newFlight r (some i) []), respPort := some (responseWord .ooc 0), faults := s.faults ++ [f] }) ∨
        ((s.cfg.debugAssert = false ∨ ∃ j a, f = .noSuchAddress j a) ∧ acceptRequest r s = .fault f))) := by
  cases hd : decode r.word with
  | error e => exact .inl ⟨e, rfl, by simp [acceptRequest, hd]⟩
  | ok i =>
    rcases blocked_cases s.cfg i (accessOf s.cfg i) r.side with ⟨-, h⟩ | ⟨-, -, h⟩ | ⟨-, -, h⟩
    · refine .inr (.inr ⟨i, _, rfl, h, ?_⟩)
      cases hb : s.cfg.debugAssert with
      | true => exact .inl ⟨rfl, ⟨_, _, _, _, rfl⟩, by simp [acceptRequest, hd, h, hb]⟩
      | false => exact .inr ⟨.inl rfl, by simp [acceptRequest, hd, h, hb]⟩
    · exact .inr (.inr ⟨i, _, rfl, h, .inr ⟨.inr ⟨_, _, rfl⟩, by simp [acceptRequest, hd, h]⟩⟩)
    · exact .inr (.inl ⟨i, rfl, h, by simp [acceptRequest, hd, h]⟩)

/-- Everything the response handshake does (R87). -/
theorem acceptResponse_cases (s : State) :
    ((s.flight = none ∨ s.respPort = none) ∧ acceptResponse s = s) ∨
    ∃ f rw, s.flight = some f ∧ s.respPort = some rw ∧
      acceptResponse s =
        { s with flight := none, respPort := none, responses := s.responses ++ [rw], seq := s.seq + 1 } := by
  unfold acceptResponse
  cases hf : s.flight with
  | none => exact .inl ⟨.inl rfl, rfl⟩
  | some f =>
    cases hr : s.respPort with
    | none => exact .inl ⟨.inr rfl, rfl⟩
    | some rw => exact .inr ⟨f, rw, rfl, rfl, rfl⟩

/-- Everything a transaction handshake does (R88). -/
theorem acceptMem_cases (s : State) :
    ((s.flight = none ∨ s.memPort = none) ∧ acceptMem s = s) ∨
    (∃ f a, s.flight = some f ∧ s.memPort = some (.read a) ∧
      acceptMem s = goOn { f with unanswered := f.unanswered ++ [a] } { s with memPort := none }) ∨
    (∃ f a b, s.flight = some f ∧ s.memPort = some (.write a b) ∧
      acceptMem s = goOn f { s with memPort := none, mem := s.mem.write a b }) := by
  unfold acceptMem
  cases hf : s.flight with
  | none => exact .inl ⟨.inl rfl, rfl⟩
  | some f =>
    cases hm : s.memPort with
    | none => exact .inl ⟨.inr rfl, rfl⟩
    | some t =>
      cases t with
      | read a => exact .inr (.inl ⟨f, a, rfl, rfl, rfl⟩)
      | write a b => exact .inr (.inr ⟨f, a, b, rfl, rfl, rfl⟩)

/-- Everything the memory's answer does when it answers a next state (R88). -/
theorem answerMem_next {s t : State} (h : answerMem s = .next t) :
    (∃ a rest, s.abandoned = a :: rest ∧ t = { s with abandoned := rest }) ∨
    ∃ f a rest, s.abandoned = [] ∧ s.flight = some f ∧ f.unanswered = a :: rest ∧
      t = goOn { f with unanswered := rest, got := f.got ++ [(a, s.mem.read a)] } s := by
  unfold answerMem at h
  split at h
  · next a rest ha =>
    cases h
    exact .inl ⟨a, rest, ha, rfl⟩
  · next ha =>
    split at h
    · next f hf =>
      split at h
      · next a rest hu =>
        cases h
        exact .inr ⟨f, a, rest, ha, hf, hu, rfl⟩
      · cases h
    · cases h

theorem State.unanswered_of_flight {s : State} {f : Flight} (h : s.flight = some f) : s.unanswered = f.unanswered := by
  simp [State.unanswered, h]

theorem State.unanswered_of_none {s : State} (h : s.flight = none) : s.unanswered = [] := by
  simp [State.unanswered, h]

/-- Everything another agent's access does when it answers a next state: its address exists, it did not race, and it lands (R25,
R60). -/
theorem foreignAccess_next {a : ForeignAccess} {s t : State} (h : foreignAccess a s = .next t) :
    t = foreignEffect a s ∧ a.addr < s.cfg.addressSpace ∧ s.racedBy a = none := by
  unfold foreignAccess at h
  split at h
  · cases h
  · next ha =>
    split at h
    · cases h
    · next hr =>
      cases h
      exact ⟨rfl, by omega, hr⟩

/-- Everything a command as one transition does when it answers a next state (R46, R171, R173). -/
theorem issue_next {r : Request} {s t : State} (h : issue r s = .next t) :
    (∃ e, decode r.word = .error e ∧ t = answerIllegal (s.withSideband r.side)) ∨
    ∃ i, decode r.word = .ok i ∧ blocked s.cfg i (accessOf s.cfg i) r.side = none ∧
      t = complete (accessOf s.cfg i) (s.withSideband r.side) := by
  unfold issue at h
  split at h
  · next i hi =>
    obtain ⟨hb, rfl⟩ := exec_eq_next h
    exact .inr ⟨i, hi, hb, rfl⟩
  · next e he =>
    cases h
    exact .inl ⟨e, he, rfl⟩

/-- Everything a step does when it answers a next state: with nothing offered, or an offer that must wait, it changes nothing;
else the next input takes effect. -/
theorem step_next {s t : State} (h : step s = .next t) :
    s.faults = [] ∧
      ((s.inputs = [] ∧ t = s) ∨
       (∃ x rest, s.inputs = x :: rest ∧ x.waitsForReady = true ∧ s.reqReady = false ∧ t = s) ∨
       ∃ x rest, s.inputs = x :: rest ∧ (x.waitsForReady = true → s.reqReady = true) ∧
         takeInput x { s with inputs := rest } = .next t) := by
  unfold step at h
  split at h
  · cases h
  · next hf =>
    refine ⟨hf, ?_⟩
    unfold nextEvent at h
    split at h
    · next hi =>
      cases h
      exact .inl ⟨hi, rfl⟩
    · next x rest hi =>
      split at h
      · next hw =>
        cases h
        simp only [Bool.and_eq_true, Bool.not_eq_true'] at hw
        exact .inr (.inl ⟨x, rest, hi, hw.1, hw.2, rfl⟩)
      · next hw =>
        refine .inr (.inr ⟨x, rest, hi, fun hx => ?_, h⟩)
        by_contra hr
        exact hw (by simp [hx, hr])

/-- What a step does with its next input. -/
theorem step_input {s : State} {x : Input} {rest : List Input} (hf : s.faults = []) (hi : s.inputs = x :: rest)
    (hr : x.waitsForReady = true → s.reqReady = true) : step s = takeInput x { s with inputs := rest } := by
  unfold step nextEvent
  rw [hf, hi]
  by_cases hx : x.waitsForReady = true
  · simp [hx, hr hx]
  · simp [hx]

/-- An offer that must wait changes nothing (R87). -/
theorem step_waits {s : State} {x : Input} {rest : List Input} (hf : s.faults = []) (hi : s.inputs = x :: rest)
    (hx : x.waitsForReady = true) (hr : s.reqReady = false) : step s = .next s := by
  unfold step nextEvent
  rw [hf, hi]
  simp [hx, hr]

theorem reqReady_iff (s : State) : s.reqReady = true ↔ s.rstN = true ∧ s.flight = none := by
  simp [State.reqReady]

end Sys2Proof.Machine
end

