-- ==== Sys2Proof/Tests/Slice0.lean ====
section
/-!
SUPPORT. Tests. Expected results come from the worked examples and the vectors of spec/95_test_vectors.md (V1 to V61) and from the
examples in the rules; each theorem names its source. After them, for every statement that has hypotheses, a concrete state and
operands that meet them.
-/
namespace Sys2Proof.Tests

open Sys2Proof.Machine

/-! ### Small states -/

/-- A command word from its parts, written out field by field and bit by bit (R70, R71). -/
def word (val : BitVec 32) (off : BitVec 16) (ver : BitVec 8) (sel : BitVec 4) (rsv : BitVec 1) (wc : BitVec 2)
    (dir : BitVec 1) : CommandWord := val ++ off ++ ver ++ sel ++ rsv ++ wc ++ dir

/-- The reset state with a buffer of `len` bytes at address 0 and these bytes of memory. -/
def onBuf (len : Nat) (m : Memory) : State := { State.reset with mem := m, sideband := ⟨0, len⟩ }

/-- What one step on a command word leaves: the responses and the memory. -/
def after (w : CommandWord) (len : Nat) (m : Memory) : Option (List ResponseWord × Memory) :=
  (nextOf (step { State.reset with mem := m, inputs := [.command ⟨w, ⟨0, len⟩⟩] })).map (fun t => (t.responses, t.mem))

/-- The fault one step on a command word ends in. -/
def faultAfter (w : CommandWord) (len : Nat) : Option Fault :=
  faultOf (step { State.reset with inputs := [.command ⟨w, ⟨0, len⟩⟩] })

/-! ### Ill-formed words, one for each check (R72, R78) -/

theorem test_ill_formed_reserved_bit : Fields.wellFormed ⟨0x08, 0, 0, 0⟩ = false ∧
    Fields.wellFormed ⟨0x18, 0, 0, 0⟩ = false := by decide
theorem test_ill_formed_width_code : Fields.wellFormed ⟨0x06, 0, 0, 0⟩ = false ∧
    Fields.wellFormed ⟨0x07, 0, 0, 0⟩ = false := by decide
theorem test_ill_formed_field_width_code : Fields.wellFormed ⟨0x12, 0, 0, 0⟩ = false ∧
    Fields.wellFormed ⟨0x82, 0, 0, 0⟩ = false := by decide
theorem test_ill_formed_selector : Fields.wellFormed ⟨0x90, 0, 0, 0⟩ = false ∧
    Fields.wellFormed ⟨0xF1, 0, 0, 0⟩ = false := by decide
theorem test_ill_formed_ver : Fields.wellFormed ⟨0x00, 1, 0, 0⟩ = false ∧
    Fields.wellFormed ⟨0x10, 1, 0, 0⟩ = false ∧ Fields.wellFormed ⟨0x80, 1, 0, 0⟩ = true := by decide
theorem test_ill_formed_off : Fields.wellFormed ⟨0x10, 0, 1, 0⟩ = false ∧
    Fields.wellFormed ⟨0x80, 0, 56, 0⟩ = false ∧ Fields.wellFormed ⟨0x00, 0, 1, 0⟩ = true := by decide
theorem test_ill_formed_get_value : Fields.wellFormed ⟨0x00, 0, 0, 1⟩ = false ∧
    Fields.wellFormed ⟨0x40, 0, 0, 1⟩ = false ∧ Fields.wellFormed ⟨0x80, 0, 0, 1⟩ = false := by decide
theorem test_ill_formed_set_value : Fields.wellFormed ⟨0x01, 0, 0, 0x100⟩ = false ∧
    Fields.wellFormed ⟨0x31, 0, 0, 0x10000⟩ = false ∧ Fields.wellFormed ⟨0x81, 1, 0, 0x100⟩ = false ∧
    Fields.wellFormed ⟨0x31, 0, 0, 0xFFFF⟩ = true ∧ Fields.wellFormed ⟨0x41, 0, 0, 0xFFFFFFFF⟩ = true := by decide

/-! ### Decoding: every constructor by a word written out from R70, R71 and R76 -/

theorem test_decode_getU8 : decode (word 0 25 0 0b0000 0 0b00 0) = .ok (.getU8 25) := by decide
theorem test_decode_setU8 : decode (word 5 25 0 0b0000 0 0b00 1) = .ok (.setU8 25 5) := by decide
theorem test_decode_getU16 : decode (word 0 2 0 0b0000 0 0b01 0) = .ok (.getU16 2) := by decide
theorem test_decode_setU16 : decode (word 0xBEEF 1 0 0b0000 0 0b01 1) = .ok (.setU16 1 0xBEEF) := by decide
theorem test_decode_getU32 : decode (word 0 4 0 0b0000 0 0b10 0) = .ok (.getU32 4) := by decide
theorem test_decode_setU32 : decode (word 0x01020304 4 0 0b0000 0 0b10 1) = .ok (.setU32 4 0x01020304) := by decide
theorem test_decode_getVersion : decode (word 0 0 0 0b0001 0 0b00 0) = .ok .getVersion := by decide
theorem test_decode_setVersion : decode (word 4 0 0 0b0001 0 0b00 1) = .ok (.setVersion 4) := by decide
theorem test_decode_getType : decode (word 0 0 0 0b0010 0 0b00 0) = .ok .getType := by decide
theorem test_decode_setType : decode (word 0xFF 0 0 0b0010 0 0b00 1) = .ok (.setType 0xFF) := by decide
theorem test_decode_getLength : decode (word 0 0 0 0b0011 0 0b00 0) = .ok .getLength := by decide
theorem test_decode_setLength : decode (word 0xFFFF 0 0 0b0011 0 0b00 1) = .ok (.setLength 0xFFFF) := by decide
theorem test_decode_getXid : decode (word 0 0 0 0b0100 0 0b00 0) = .ok .getXid := by decide
theorem test_decode_setXid : decode (word 0x80000001 0 0 0b0100 0 0b00 1) = .ok (.setXid 0x80000001) := by decide
theorem test_decode_getStatsType : decode (word 0 0 0 0b0101 0 0b00 0) = .ok .getStatsType := by decide
theorem test_decode_setStatsType : decode (word 0x1234 0 0 0b0101 0 0b00 1) = .ok (.setStatsType 0x1234) := by decide
theorem test_decode_getExperimenterId : decode (word 0 0 0 0b0110 0 0b00 0) = .ok .getExperimenterId := by decide
theorem test_decode_setExperimenterId :
    decode (word 0xAABBCCDD 0 0 0b0110 0 0b00 1) = .ok (.setExperimenterId 0xAABBCCDD) := by decide
theorem test_decode_getExperimenterSubtype :
    decode (word 0 0 0 0b0111 0 0b00 0) = .ok .getExperimenterSubtype := by decide
theorem test_decode_setExperimenterSubtype :
    decode (word 0x2A 0 0 0b0111 0 0b00 1) = .ok (.setExperimenterSubtype 0x2A) := by decide
theorem test_decode_getCommand : decode (word 0 0 0xFF 0b1000 0 0b00 0) = .ok (.getCommand 0xFF) := by decide
theorem test_decode_setCommand : decode (word 7 0 4 0b1000 0 0b00 1) = .ok (.setCommand 4 7) := by decide

/-- V49 to V61: the illegal words, each with the test of R77 that it fails. -/
theorem test_decode_illegal :
    decode 0x0000000000000006 = .error .widthCode ∧ decode 0x0000000000000008 = .error .reservedBit ∧
    decode 0x0000000000000090 = .error .selector ∧ decode 0x0000000000000012 = .error .widthCode ∧
    decode 0x0000000000000100 = .error .verNotZero ∧ decode 0x0000010000000001 = .error .valNotZero := by decide
theorem test_decode_illegal_more :
    decode 0x0000000000010010 = .error .offNotZero ∧ decode 0x0000000100000040 = .error .valNotZero ∧
    decode 0x0001000000000031 = .error .valNotZero ∧ decode 0x0000010000000181 = .error .valNotZero ∧
    decode 0x0000000000380180 = .error .offNotZero ∧ decode 0x00000000FFFF0006 = .error .widthCode ∧
    decode 0xFFFFFFFFFFFFFFFF = .error .reservedBit := by decide

/-- R84: each row of the opcode map decodes from its `match` word, and encodes back to it. -/
theorem test_opcode_map_rows :
    opcodeMap.all (fun r => match decodeTableWord 64 r.bits.toNat with
      | some i => encode i == r.bits
      | none => false) = true := by decide

/-! ### One step on a small state: the vectors of the spec -/

/-- V1, V3. -/
theorem test_getU8 : after 0x0000000000000000 1 [(0, 0xAB)] = some ([0x0000000AB], [(0, 0xAB)]) ∧
    faultAfter 0x0000000000080000 8 = some (.outOfContract (.getU8 8) 8 1 8) := by decide
/-- V17: the largest offset on the largest buffer. -/
theorem test_getU8_top : after 0x00000000FFFF0000 65536 [(65535, 0x77)] = some ([0x000000077], [(65535, 0x77)]) := by decide
/-- V11. -/
theorem test_setU8 : after 0x0000000500190001 26 [(25, 0xEE)] = some ([0x000000000], [(25, 0x05)]) := by decide
/-- V4: 256, not 1. -/
theorem test_getU16 : after 0x0000000000020002 8 [(2, 1)] = some ([0x000000100], [(2, 1)]) := by decide
/-- V7: no wrap to offset 0. -/
theorem test_getU16_no_wrap : faultAfter 0x00000000FFFF0002 65536 = some (.outOfContract (.getU16 65535) 65535 2 65536) := by decide
/-- V13: odd offset, bytes 0 and 3 unchanged. -/
theorem test_setU16 : after 0x0000BEEF00010003 8 [(0, 0x11), (1, 0x22), (2, 0x33), (3, 0x44)] =
    some ([0x000000000], [(0, 0x11), (1, 0xBE), (2, 0xEF), (3, 0x44)]) := by decide
/-- V12: the high byte is written as 00. -/
theorem test_setU16_zero_byte : after 0x0000000500380003 58 [(56, 0x12), (57, 0x34)] = some ([0], [(57, 5)]) := by decide
/-- V8, V10. -/
theorem test_getU32 : after 0x0000000000040004 8 [(4, 1), (5, 2), (6, 3), (7, 4)] =
      some ([0x001020304], [(4, 1), (5, 2), (6, 3), (7, 4)]) ∧
    faultAfter 0x0000000000050004 8 = some (.outOfContract (.getU32 5) 5 4 8) := by decide
/-- V9: unsigned. -/
theorem test_getU32_unsigned : (after 0x0000000000000004 8 [(0, 0xFF), (1, 0xFF), (2, 0xFF), (3, 0xFF)]).map Prod.fst =
    some [0x0FFFFFFFF] := by decide
/-- V14, V15. -/
theorem test_setU32 : after 0x0102030400040005 8 [] = some ([0], [(4, 1), (5, 2), (6, 3), (7, 4)]) ∧
    faultAfter 0x0000000100060005 8 = some (.outOfContract (.setU32 6 1) 6 4 8) := by decide
/-- V18, V19: the byte exists on a 7-byte buffer, but the buffer is out of contract. -/
theorem test_getVersion : after 0x0000000000000010 8 [(0, 4)] = some ([0x000000004], [(0, 4)]) ∧
    faultAfter 0x0000000000000010 7 = some (.outOfContract .getVersion 0 1 7) := by decide
/-- V20. -/
theorem test_setVersion : after 0x0000000100000011 8 [(0, 4)] = some ([0], [(0, 1)]) := by decide
/-- V21. -/
theorem test_getType : after 0x0000000000000020 8 [(1, 0x0E)] = some ([0x00000000E], [(1, 0x0E)]) := by decide
/-- V22. -/
theorem test_setType : after 0x000000FF00000021 8 [(0, 4)] = some ([0], [(0, 4), (1, 0xFF)]) := by decide
/-- V23. -/
theorem test_getLength : after 0x0000000000000030 8 [(3, 8)] = some ([0x000000008], [(3, 8)]) := by decide
/-- V24, the first command. -/
theorem test_setLength : after 0x0000FFFF00000031 8 [] = some ([0], [(2, 0xFF), (3, 0xFF)]) := by decide
/-- V25: bit 31 set, unsigned. -/
theorem test_getXid : after 0x0000000000000040 8 [(4, 0x80), (7, 1)] = some ([0x080000001], [(4, 0x80), (7, 1)]) := by decide
/-- S3: the source's byte order example. -/
theorem test_setXid : after 0x0102030400000041 8 [] = some ([0], [(4, 1), (5, 2), (6, 3), (7, 4)]) := by decide
/-- V27, V28. -/
theorem test_getStatsType : after 0x0000000000000050 10 [(9, 0x11)] = some ([0x000000011], [(9, 0x11)]) ∧
    faultAfter 0x0000000000000050 9 = some (.outOfContract .getStatsType 8 2 9) := by decide
/-- V31, the first command: bytes 10 and 11 are kept. -/
theorem test_setStatsType : after 0x0000123400000051 16 [(8, 0xAA), (9, 0xBB), (10, 0xCC), (11, 0xDD)] =
    some ([0], [(8, 0x12), (9, 0x34), (10, 0xCC), (11, 0xDD)]) := by decide
/-- V33, V32: the bytes exist on a 15-byte buffer, but 16 are required. -/
theorem test_getExperimenterId : after 0x0000000000000060 16 [(9, 0x5C), (10, 0x16), (11, 0xC7)] =
      some ([0x0005C16C7], [(9, 0x5C), (10, 0x16), (11, 0xC7)]) ∧
    faultAfter 0x0000000000000060 15 = some (.outOfContract .getExperimenterId 8 4 15) := by decide
/-- V30, the first command. -/
theorem test_setExperimenterId : after 0xAABBCCDD00000061 16 [] =
    some ([0], [(8, 0xAA), (9, 0xBB), (10, 0xCC), (11, 0xDD)]) := by decide
/-- R135, its example. -/
theorem test_getExperimenterSubtype : after 0x0000000000000070 16 [(15, 0x2A)] = some ([0x00000002A], [(15, 0x2A)]) := by decide
/-- V34, V35. -/
theorem test_setExperimenterSubtype : after 0x0000002A00000071 16 [(8, 1), (9, 2), (10, 3), (11, 4)] =
      some ([0], [(8, 1), (9, 2), (10, 3), (11, 4), (15, 0x2A)]) ∧
    faultAfter 0x0000002A00000071 15 = some (.outOfContract (.setExperimenterSubtype 0x2A) 12 4 15) := by decide
/-- V40: the high byte is dropped. V43: 57 bytes are not enough. -/
theorem test_getCommand_one_zero : after 0x0000000000000180 58 [(56, 0x12), (57, 0x34)] =
      some ([0x000000034], [(56, 0x12), (57, 0x34)]) ∧
    faultAfter 0x0000000000000180 57 = some (.outOfContract (.getCommand 1) 56 2 57) := by decide
/-- V38, V42, V45: every other tag reads byte 25. -/
theorem test_getCommand_other : after 0x0000000000000080 26 [(25, 3)] = some ([0x000000003], [(25, 3)]) ∧
    after 0x0000000000000480 26 [(25, 5)] = some ([0x000000005], [(25, 5)]) ∧
    faultAfter 0x0000000000000480 25 = some (.outOfContract (.getCommand 4) 25 1 25) := by decide
/-- V36 and V41: the high byte is forced to zero, with no sign extension; byte 25 is left alone. -/
theorem test_setCommand_one_zero : after 0x0000000500000181 58 [(25, 0xEE), (56, 0xEE), (57, 0xEE)] =
      some ([0], [(25, 0xEE), (57, 5)]) ∧
    after 0x000000FF00000181 58 [(56, 0x12), (57, 0x34)] = some ([0], [(57, 0xFF)]) := by decide
/-- V39. -/
theorem test_setCommand_other : after 0x000000070000FF81 26 [(25, 3)] = some ([0], [(25, 7)]) := by decide
/-- V49, V60: an illegal word is answered whatever the buffer is. -/
theorem test_illegal_word : after 0x0000000000000006 8 [] = some ([0x100000000], []) ∧
    after 0x00000000FFFF0006 0 [] = some ([0x100000000], []) := by decide
/-- The host's placement: the word of V14 is run by the very next step. -/
theorem test_withFetchWord : (nextOf (step (State.reset.withFetchWord 64 0x0102030400040005))).map
    (fun t => (t.responses, t.mem)) = some ([0], [(4, 1), (5, 2), (6, 3), (7, 4)]) := by decide
/-- A buffer that runs past the top of the address space: an access below the top completes, one past it faults (log 5). -/
theorem test_top_of_memory :
    (nextOf (exec (.getU8 15) { State.reset with sideband := ⟨0xFFFFFFF0, 32⟩ })).isSome = true ∧
    faultOf (exec (.getU8 16) { State.reset with sideband := ⟨0xFFFFFFF0, 32⟩ }) =
      some (.noSuchAddress (.getU8 16) 0x100000000) := by decide

/-! ### Witnesses: for every statement that has hypotheses, a state and operands that meet them -/

/-- A request on a buffer at address 0. -/
def ask (w : CommandWord) (len : Nat) : Request := ⟨w, ⟨0, len⟩⟩

/-- The idle reset state with these inputs. -/
def idle (es : List Input) : State := { State.reset with inputs := es }

/-- The idle reset state of an instance with `DEBUG_ASSERT = 1` with these inputs. -/
def asserting (es : List Input) : State := { idle es with cfg := ⟨16, 32, 1, true⟩ }

/-- A command in flight on an 8-byte buffer at address 0. -/
def flying (i : Instr) (port : Option MemTxn) (todo : List MemTxn) (un : List Nat) (resp : Option ResponseWord)
    (es : List Input) : State :=
  { State.reset with
    sideband := ⟨0, 8⟩
    flight := some ⟨ask (encode i) 8, some i, todo, un, []⟩
    memPort := port
    respPort := resp
    inputs := es }

/-- A set in flight: its first byte is offered, its second is still to come. -/
def writing (es : List Input) : State :=
  flying (.setU16 0 0xABCD) (some (.write 0 0xAB)) [.write 1 0xCD] [] none es

/-- A get in flight: its one byte is offered for reading. -/
def reading (es : List Input) : State := flying (.getU8 3) (some (.read 3)) [] [] none es

/-- A get in flight: its read is accepted and not yet answered. -/
def awaiting (es : List Input) : State := flying (.getU8 3) none [] [3] none es

/-- A completed set whose response is offered. -/
def offering (es : List Input) : State := flying (.setU8 0 1) none [] [] (some 0) es

theorem witness_ResetAbandonsAndKeepsMemory :
    (writing [.resetFalls]).faults = [] ∧ (writing [.resetFalls]).inputs = .resetFalls :: [] := by decide
theorem witness_EncodeOfDecode : decode 0x0000000500000481 = .ok (.setCommand 4 5) := by decide
theorem witness_StepRunsDecodedCommand :
    (idle [.command (ask 0x0102030400040005 8)]).faults = [] ∧ (idle [.command (ask 0x0102030400040005 8)]).reqReady = true ∧
    decode (ask 0x0102030400040005 8).word = .ok (.setU32 4 0x01020304) := by decide
theorem witness_IllegalWordIsAnsweredWithStatusOne :
    (idle [.command (ask 6 0)]).Idle ∧ decode (ask 6 0).word = .error .widthCode ∧
    (idle [.command (ask 6 0)]).inputs = .command (ask 6 0) :: [] ∧
    (idle [.request (ask 6 0), .respAccept]).Idle ∧
    (idle [.request (ask 6 0), .respAccept]).inputs = .request (ask 6 0) :: .respAccept :: [] := by decide
theorem witness_NothingRunsWithoutInput :
    State.reset.faults = [] ∧ State.reset.inputs = [] ∧ (writing []).faults = [] ∧ (writing []).inputs = [] := by decide
theorem witness_FaultRecordIsNeverLeft :
    { State.reset with faults := [.race .getXid] }.faults ≠ [] := by decide
theorem witness_ConfigNeverChanges : ∃ t, step (idle [.command (ask 6 0)]) = .next t := ⟨_, rfl⟩
theorem witness_CommandOutcomesAreExactly :
    (∃ t, exec .getVersion (onBuf 8 []) = .next t) ∧ (onBuf 7 []).sideband.bufLen Config.default < leastLen Config.default .getVersion ∧
    InContract Config.default .getVersion (onBuf 8 []).sideband ∧
    exec (.getU8 16) { State.reset with sideband := ⟨0xFFFFFFF0, 32⟩ } =
      .fault (.noSuchAddress (.getU8 16) 0x100000000) := ⟨⟨_, rfl⟩, by decide, by decide, rfl⟩

/-- The lengths at which a command with the least length `least` comes into contract, on buffers that fit. -/
def boundary (least : Nat) : Bool :=
  decide ((onBuf (least - 1) []).sideband.bufLen Config.default < least ∧ least ≤ (onBuf least []).sideband.bufLen Config.default ∧
    (onBuf least []).sideband.fits Config.default)

theorem witness_GetU8ReadsOneByte : boundary 1 = true ∧ boundary 65536 = true := by decide
theorem witness_GetU16ReadsBigEndian :
    boundary 2 = true ∧ boundary 65536 = true ∧ (onBuf 65536 []).sideband.bufLen Config.default < (65535 : Offset).toNat + 2 := by decide
theorem witness_GetU32ReadsBigEndian :
    boundary 4 = true ∧ boundary 65536 = true ∧ (onBuf 65536 []).sideband.bufLen Config.default < (65533 : Offset).toNat + 4 := by decide
theorem witness_SetU8WritesOneByte : boundary ((25 : Offset).toNat + 1) = true ∧ boundary 65536 = true := by decide
theorem witness_SetU16WritesBigEndian : boundary ((56 : Offset).toNat + 2) = true ∧ boundary 65536 = true := by decide
theorem witness_SetU32WritesBigEndian : boundary ((4 : Offset).toNat + 4) = true ∧ boundary 65536 = true := by decide
theorem witness_VersionAccessors : boundary 8 = true := by decide
theorem witness_TypeAccessors : boundary 8 = true := by decide
theorem witness_LengthAccessors : boundary 8 = true := by decide
theorem witness_XidAccessors : boundary 8 = true := by decide
theorem witness_StatsTypeAccessors : boundary 10 = true := by decide
theorem witness_ExperimenterIdAccessors : boundary 16 = true := by decide
theorem witness_ExperimenterSubtypeAccessors : boundary 16 = true := by decide
theorem witness_GetCommandRoutesAndNarrows :
    boundary 58 = true ∧ boundary 26 = true ∧ (1 : VersionTag) = (onBuf 58 []).cfg.verOneZero ∧
    (0 : VersionTag) ≠ (onBuf 26 []).cfg.verOneZero ∧ (255 : VersionTag) ≠ (onBuf 26 []).cfg.verOneZero := by decide
theorem witness_SetCommandRoutesAndWidens :
    boundary 58 = true ∧ boundary 26 = true ∧ (1 : VersionTag) = (onBuf 58 []).cfg.verOneZero ∧
    (2 : VersionTag) ≠ (onBuf 26 []).cfg.verOneZero := by decide

theorem witness_PrimitiveRoundTrip :
    1 ≤ 2 ∧ (0xFFFF : Value).toNat < 256 ^ 2 ^ 1 ∧ (6 : Offset).toNat + 2 ^ 1 ≤ (onBuf 8 []).sideband.bufLen Config.default ∧
    (onBuf 8 []).sideband.fits Config.default ∧ ∃ t, exec (primSetOf 1 6 0xFFFF) (onBuf 8 []) = .next t ∧ SameRange t t 6 (2 ^ 1) :=
  ⟨by decide, by decide, by decide, by decide, _, rfl, rfl, rfl, fun _ _ => rfl⟩
theorem witness_MixedWidthReadSeesItsBits :
    2 ≤ 2 ∧ 1 ≤ 2 ∧ 2 + 2 ^ 1 ≤ 2 ^ 2 ∧ (6 : Offset).toNat = (4 : Offset).toNat + 2 ∧
    (0xFFFFFFFF : Value).toNat < 256 ^ 2 ^ 2 ∧ (4 : Offset).toNat + 2 ^ 2 ≤ (onBuf 8 []).sideband.bufLen Config.default ∧
    (onBuf 8 []).sideband.fits Config.default := by decide
theorem witness_DisjointSetsCommute :
    (4 : Offset).toNat + 2 ^ 1 ≤ (6 : Offset).toNat ∧ (4 : Offset).toNat + 2 ^ 1 ≤ (onBuf 8 []).sideband.bufLen Config.default ∧
    (6 : Offset).toNat + 2 ^ 1 ≤ (onBuf 8 []).sideband.bufLen Config.default ∧ (onBuf 8 []).sideband.fits Config.default := by decide
theorem witness_OffsetsDoNotWrap :
    State.reset.cfg.aw ≤ 16 ∧ (65535 : Offset).toNat = 65535 ∧ 65533 ≤ (65533 : Offset).toNat := by decide
theorem witness_FieldRoundTrip :
    (0xFFFFFFFF : Value).toNat < 256 ^ (fieldLocation .experimenterId).width ∧
    fieldMinLen .experimenterId ≤ (onBuf 16 []).sideband.bufLen Config.default ∧ (onBuf 16 []).sideband.fits Config.default ∧
    ∃ t, exec (fieldSetOf .experimenterId 0xFFFFFFFF) (onBuf 16 []) = .next t ∧ SameRange t t 8 4 :=
  ⟨by decide, by decide, by decide, _, rfl, rfl, rfl, fun _ _ => rfl⟩
theorem witness_OverlayAndNoOtherOverlap :
    16 ≤ (onBuf 16 []).sideband.bufLen Config.default ∧ (onBuf 16 []).sideband.fits Config.default ∧
    Field.experimenterSubtype ≠ .experimenterId ∧ ¬ (Field.experimenterSubtype = .statsType ∧ Field.experimenterId = .experimenterId) ∧
    ¬ (Field.experimenterSubtype = .experimenterId ∧ Field.experimenterId = .statsType) := by decide
theorem witness_AccessorsEqualPrimitives :
    2 ^ 0 = (fieldLocation .version).width ∧ (0 : Offset).toNat = (fieldLocation .version).off ∧
    (onBuf 8 []).sideband.fits Config.default ∧ fieldMinLen .version ≤ (onBuf 8 []).sideband.bufLen Config.default ∧
    2 ^ 2 = (fieldLocation .experimenterId).width ∧ (8 : Offset).toNat = (fieldLocation .experimenterId).off ∧
    12 ≤ (onBuf 12 []).sideband.bufLen Config.default ∧ (onBuf 15 []).sideband.bufLen Config.default ≤ 15 := by decide
/-- The boundaries of R139: in contract for the primitive, out of contract for the accessor, get and set alike. -/
theorem witness_AccessorsEqualPrimitives_short :
    (nextOf (exec (primGetOf 0 0) (onBuf 1 []))).isSome ∧ (faultOf (exec .getVersion (onBuf 7 []))).isSome ∧
    (nextOf (exec (primSetOf 0 1 9) (onBuf 2 []))).isSome ∧ (faultOf (exec (.setType 9) (onBuf 7 []))).isSome ∧
    (nextOf (exec (primGetOf 1 2) (onBuf 4 []))).isSome ∧ (faultOf (exec .getLength (onBuf 7 []))).isSome ∧
    (nextOf (exec (primSetOf 2 8 9) (onBuf 12 []))).isSome ∧ (faultOf (exec (.setExperimenterId 9) (onBuf 15 []))).isSome := by
  decide
theorem witness_MessageTypeGatesNothing :
    fieldMinLen .statsType ≤ (onBuf 10 []).sideband.bufLen Config.default ∧ (onBuf 10 []).sideband.fits Config.default ∧
    fieldMinLen .experimenterId ≤ (onBuf 16 []).sideband.bufLen Config.default ∧
    fieldMinLen .experimenterSubtype ≤ (onBuf 16 []).sideband.bufLen Config.default ∧ (onBuf 16 []).sideband.fits Config.default := by decide
theorem witness_NarrowingDropsTheHighByte :
    58 ≤ (onBuf 58 []).sideband.bufLen Config.default ∧ (onBuf 58 []).sideband.fits Config.default := by decide
theorem witness_CommandRoundTripAndNonAliasing :
    InContract Config.default (.setCommand 2 9) (onBuf 26 []).sideband ∧
    (2 : VersionTag) ≠ Config.default.verOneZero ∧ (4 : VersionTag) ≠ Config.default.verOneZero ∧
    InContract Config.default (.setCommand 1 9) (onBuf 58 []).sideband ∧
    InContract Config.default (.getCommand 4) (onBuf 58 []).sideband ∧
    InContract Config.default (.getCommand 1) (onBuf 58 []).sideband ∧
    ((1 : VersionTag) = Config.default.verOneZero ↔ (4 : VersionTag) ≠ Config.default.verOneZero) ∧
    ((4 : VersionTag) = Config.default.verOneZero ↔ (1 : VersionTag) ≠ Config.default.verOneZero) := by decide
theorem witness_VersionComesFromTheOperand :
    InContract Config.default (.getCommand 1) (onBuf 58 [(0, 4)]).sideband ∧
    InContract Config.default (.getCommand 4) (onBuf 26 [(0, 1)]).sideband := by decide
theorem witness_CommandBoundaryLengths :
    (4 : VersionTag) ≠ Config.default.verOneZero ∧ (onBuf 26 []).sideband.fits Config.default ∧ (onBuf 26 []).sideband.bufLen Config.default = 26 ∧
    (onBuf 57 []).sideband.fits Config.default ∧ 26 ≤ (onBuf 57 []).sideband.bufLen Config.default ∧ (onBuf 57 []).sideband.bufLen Config.default ≤ 57 ∧
    (onBuf 58 []).sideband.fits Config.default ∧ (onBuf 58 []).sideband.bufLen Config.default = 58 := by decide
theorem witness_GetsChangeNothingButTheResponse :
    isSet Config.default (.getU32 4) = false ∧ ∃ t, exec (.getU32 4) (onBuf 8 []) = .next t := ⟨by decide, _, rfl⟩
theorem witness_SetsChangeOnlyTheirRange :
    isSet Config.default (.setU32 4 0) = true ∧ ∃ t, exec (.setU32 4 0) (onBuf 8 [(4, 1)]) = .next t := ⟨by decide, _, rfl⟩
theorem witness_SetsAreIdempotent :
    isSet Config.default (.setXid 7) = true ∧ ∃ t, exec (.setXid 7) (onBuf 8 []) = .next t := ⟨by decide, _, rfl⟩
theorem witness_ResponseDependsOnTheRangeOnly :
    InContract Config.default .getXid (onBuf 8 []).sideband ∧
    SameRange (onBuf 8 [(3, 1)]) (onBuf 8 [(3, 2)]) (accessOf Config.default .getXid).loc.off
      (accessOf Config.default .getXid).loc.width :=
  ⟨by decide, rfl, rfl, by decide⟩
theorem witness_NoStatusIsSticky : InContract Config.default .getXid (onBuf 8 []).sideband := by decide
theorem witness_LengthsAboveTheLargestActAsIt :
    State.reset.cfg.maxLen ≤ (⟨0, 65536⟩ : Sideband).len ∧ State.reset.cfg.maxLen ≤ (⟨0, 131071⟩ : Sideband).len ∧
    (∃ t, exec (.getU8 65535) (onBuf 65536 []) = .next t) ∧
    ∃ f, exec (.getU16 65535) (onBuf 65536 []) = .fault f := ⟨by decide, by decide, ⟨_, rfl⟩, ⟨_, rfl⟩⟩
theorem witness_OutOfContractIsTheFault :
    (idle [.command (ask 0x10 7)]).Idle ∧ decode (ask 0x10 7).word = .ok .getVersion ∧
    (ask 0x10 7).side.bufLen Config.default < leastLen Config.default .getVersion ∧
    (idle [.command (ask 0x10 7)]).inputs = .command (ask 0x10 7) :: [] ∧
    (idle [.request (ask 0x10 7), .respAccept]).inputs = .request (ask 0x10 7) :: .respAccept :: [] ∧
    (idle [.request (ask 0x10 7), .respAccept]).cfg.debugAssert = false ∧
    (asserting [.request (ask 0x10 7)]).Idle ∧ (asserting [.request (ask 0x10 7)]).cfg.debugAssert = true ∧
    (ask 0x10 7).side.bufLen (asserting []).cfg < leastLen (asserting []).cfg .getVersion := by decide
theorem witness_RequestWaitsUntilReady :
    (writing [.command (ask 0x10 8)]).faults = [] ∧ (writing [.command (ask 0x10 8)]).reqReady = false ∧
    (writing [.request (ask 0x10 8)]).reqReady = false ∧
    { idle [.request (ask 0x10 8)] with rstN := false }.reqReady = false ∧
    (reading [.memAccept]).flight.isSome ∧ (Input.memAccept ≠ .respAccept) ∧ (Input.memAccept ≠ .resetFalls) := by decide
theorem witness_RequestWaitsUntilReady_step : ∃ t, step (reading [.memAccept]) = .next t := ⟨_, rfl⟩
theorem witness_MemoryPortTransactions :
    (writing [.memAccept]).faults = [] ∧ (writing [.memAccept]).flight.isSome ∧
    (writing [.memAccept]).memPort = some (.write 0 0xAB) ∧ (reading [.memAccept]).memPort = some (.read 3) ∧
    (awaiting [.memAccept]).memPort = none ∧ (awaiting [.memAnswer]).flight.map (·.unanswered) = some [3] ∧
    (awaiting [.memAnswer]).abandoned = [] ∧ (idle [.memAnswer]).abandoned = [] ∧ (idle [.memAnswer]).unanswered = [] ∧
    { idle [.memAnswer] with abandoned := [3, 4] }.abandoned = 3 :: [4] := by decide

/-- R88, log 19: the answer to a read that reset abandoned is owed still; it is dropped, and the read in flight goes on waiting. -/
theorem test_answer_after_reset_is_dropped :
    (nextOf (step (awaiting [.resetFalls]))).map (fun t => (t.abandoned, t.flight)) = some ([3], none) ∧
    (nextOf (step { awaiting [.memAnswer] with abandoned := [9] })).map
      (fun t => (t.abandoned, t.unanswered, t.responses)) = some ([], [3], []) := by decide

/-- R172, log 3: the fault is recorded with the response `{2, 0}`, and a reset does not lose it. -/
theorem test_out_of_contract_survives_reset :
    (advance (asserting [.request (ask 0x10 7), .resetFalls])).respPort = some 0x200000000 ∧
    (runFor 2 (asserting [.request (ask 0x10 7), .resetFalls])).faults =
      [.outOfContract .getVersion 0 1 7, .runFaulted] := by decide

/-- R211, log 20: a run has ended after its command, and a run that reset cut has not. -/
theorem test_ended :
    (advance (idle [.command (ask 6 0)])).ended 1 = true ∧
    (runFor 2 (idle [.command (ask 6 0), .resetFalls])).ended 1 = false := by decide

/-- R6, R48, R83: an instance with `AW = 8` and `PA_W = 16`: a buffer has at most 256 bytes, and memory ends at `0xFFFF`. -/
theorem test_other_widths :
    faultOf (exec (.getU8 256) { onBuf 300 [] with cfg := ⟨8, 16, 1, false⟩ }) = some (.outOfContract (.getU8 256) 256 1 256) ∧
    (nextOf (exec (.getU8 255) { onBuf 300 [] with cfg := ⟨8, 16, 1, false⟩ })).isSome = true ∧
    faultOf (exec (.getU8 1) { onBuf 8 [] with cfg := ⟨8, 16, 1, false⟩, sideband := ⟨0xFFFF, 8⟩ }) =
      some (.noSuchAddress (.getU8 1) 0x10000) := by decide

/-- A write to the buffer of a get, a read of the buffer of a set, and an access past the buffer. -/
theorem witness_RaceIsExactlyABrokenExclusivity :
    faultOf (step (reading [.foreign (.write 7 1)])) = some (.race (.getU8 3)) ∧
    faultOf (step (writing [.foreign (.read 0)])) = some (.race (.setU16 0 0xABCD)) ∧
    (nextOf (step (writing [.foreign (.write 8 1)]))).map (·.mem) = some [(8, 1)] ∧
    (nextOf (step (reading [.foreign (.read 3)]))).isSome ∧
    State.reset.cfg.addressSpace ≤ (ForeignAccess.read 0x100000000).addr ∧
    (ForeignAccess.read 0xFFFFFFFF).addr < State.reset.cfg.addressSpace := by decide
theorem witness_WritesBetweenCommandsAreSeen :
    (idle []).Idle ∧ decode (ask 0x40 8).word = .ok .getXid ∧ InContract Config.default .getXid (ask 0x40 8).side ∧
    (accessOf Config.default .getXid).action = .load 4 ∧
    (ask 0x40 8).side.address (accessOf Config.default .getXid).loc.off ≤ 7 ∧
    7 < (ask 0x40 8).side.address (accessOf Config.default .getXid).loc.off + (accessOf Config.default .getXid).loc.width :=
  ⟨by decide, by decide, by decide, rfl, by decide, by decide⟩
theorem witness_StepKeepsMemoryCanonical :
    (writing [.memAccept]).MemoryOk ∧ (writing [.memAccept]).AddressesExist ∧ ∃ t, step (writing [.memAccept]) = .next t := by
  refine ⟨by decide, ⟨fun t h => ?_, fun f h t ht => ?_⟩, _, rfl⟩
  · cases h
    decide
  · cases h
    cases List.mem_singleton.mp ht
    decide
theorem witness_CommandListRunsToItsEnd :
    ∀ r ∈ [ask 0x06 0, ask 0x40 8], ∀ i, decode r.word = .ok i → InContract Config.default i r.side := by
  simp only [List.forall_mem_cons]
  refine ⟨fun i h => absurd h ?_, fun i h => ?_, by simp⟩
  · rw [show decode (ask 0x06 0).word = .error .widthCode by decide]
    simp
  · rw [show decode (ask 0x40 8).word = .ok .getXid by decide] at h
    cases h
    decide

/-- With one transaction left, the free order has one choice. -/
theorem offerNext_one (f : Flight) (t : MemTxn) (s : State) (h : f.todo = [t]) :
    offerNext f s = { s with flight := some { f with todo := [] }, memPort := some t, fresh := s.fresh + 1 } := by
  simp [offerNext, h, Nat.mod_one]

/-- A set of one byte is accepted: its one transaction is offered. -/
theorem test_request_offers_write (es : List Input) :
    step (idle (.request (ask 0x0000000500030001 8) :: es)) =
      .next { flying (.setU8 3 5) (some (.write 3 5)) [] [] none es with fresh := 1 } := by
  have h : step (idle (.request (ask 0x0000000500030001 8) :: es)) =
      .next (offerNext (newFlight (ask 0x0000000500030001 8) (some (.setU8 3 5)) [.write 3 5])
        { idle es with sideband := ⟨0, 8⟩ }) := rfl
  rw [h, offerNext_one _ _ _ rfl]
  rfl

/-- The write is accepted: the response is offered (R57). -/
theorem test_write_accepted (es : List Input) :
    step { flying (.setU8 3 5) (some (.write 3 5)) [] [] none (.memAccept :: es) with fresh := 1 } =
      .next { flying (.setU8 3 5) none [] [] (some 0) es with fresh := 1, mem := [(3, 5)] } := rfl

/-- The whole of a one-byte set at the ports. -/
theorem witness_PortLevelAgreesWithOneTransition :
    (idle []).Idle ∧ decode (ask 0x0000000500030001 8).word = .ok (.setU8 3 5) ∧
    InContract Config.default (.setU8 3 5) (ask 0x0000000500030001 8).side ∧
    ∃ t, Host.Core.run core 3 (idle [.request (ask 0x0000000500030001 8), .memAccept, .respAccept]) = .next t ∧
      t.flight = none ∧ t.mem = [(3, 5)] ∧ t.responses = [0] := by
  refine ⟨by decide, by decide, by decide, ?_⟩
  simp only [Host.Core.run, core, test_request_offers_write, test_write_accepted]
  exact ⟨_, rfl, rfl, rfl, rfl⟩

/-- The same set, handshake by handshake, each taking place. -/
theorem witness_FairCommandCompletes :
    (idle []).Idle ∧ decode (ask 0x0000000500030001 8).word = .ok (.setU8 3 5) ∧
    InContract Config.default (.setU8 3 5) (ask 0x0000000500030001 8).side ∧
    ∀ u, step { idle [] with inputs := [.request (ask 0x0000000500030001 8)] } = .next u → TakePlace [.memAccept, .respAccept] u := by
  refine ⟨by decide, by decide, by decide, fun u h => ?_⟩
  cases (test_request_offers_write []).symm.trans h
  refine ⟨rfl, fun t h => ?_⟩
  cases (test_write_accepted []).symm.trans h
  exact ⟨rfl, fun _ _ => trivial⟩

/-- Reset falls after no transaction and after the one transaction of a set (R201). -/
theorem witness_ResetInASetLeavesOldOrNewBytes :
    (idle []).Idle ∧ decode (ask 0x0000000500030001 8).word = .ok (.setU8 3 5) ∧
    InContract Config.default (.setU8 3 5) (ask 0x0000000500030001 8).side ∧ isSet Config.default (.setU8 3 5) = true ∧
    (∃ t, Host.Core.run core 2 (idle [.request (ask 0x0000000500030001 8), .resetFalls]) = .next t ∧ t.mem = []) ∧
    ∃ t, Host.Core.run core 3 (idle [.request (ask 0x0000000500030001 8), .memAccept, .resetFalls]) = .next t ∧
      t.mem = [(3, 5)] := by
  refine ⟨by decide, by decide, by decide, by decide, ?_, ?_⟩
  · simp only [Host.Core.run, core, test_request_offers_write]
    exact ⟨_, rfl, rfl⟩
  · simp only [Host.Core.run, core, test_request_offers_write, test_write_accepted]
    exact ⟨_, rfl, rfl⟩

/-- A transaction offered, a read unanswered and a response offered, in states that meet the invariant. -/
theorem inv_writing (es : List Input) : (writing es).Inv := by
  refine ⟨⟨rfl, rfl⟩, ⟨rfl, nofun⟩, Or.inl ?_⟩
  constructor
  · rfl
  · rfl
  · rfl
  · intro t ht
    refine ⟨.setU16 0 0xABCD, rfl, ?_⟩
    rcases (by simpa [State.pending, writing, flying] using ht : t = .write 0 0xAB ∨ t = .write 1 0xCD) with rfl | rfl
    · exact ⟨rfl, show (0 : Nat) ≤ 0 ∧ 0 < 2 ∧ 2 ≤ 2 ^ 32 by decide⟩
    · exact ⟨rfl, show (0 : Nat) ≤ 1 ∧ 1 < 2 ∧ 2 ≤ 2 ^ 32 by decide⟩
  · intro a ha; cases ha
  · show [(0 : Nat), 1].Nodup
    decide
  · intro i hi hs; cases hi; cases hs
  · intro h; cases h
  · intro rw h; cases h
  · intro _; exact Or.inl nofun

theorem inv_awaiting (es : List Input) : (awaiting es).Inv := by
  refine ⟨⟨rfl, rfl⟩, ⟨rfl, nofun⟩, Or.inl ?_⟩
  constructor
  · rfl
  · rfl
  · rfl
  · intro t ht; cases ht
  · intro a ha
    cases List.mem_singleton.mp ha
    exact ⟨.getU8 3, rfl, rfl, show (3 : Nat) ≤ 3 ∧ 3 < 4 ∧ 4 ≤ 2 ^ 32 by decide⟩
  · show [(3 : Nat)].Nodup
    decide
  · intro i hi _; cases hi; rfl
  · intro _; rfl
  · intro rw h; cases h
  · intro _; exact Or.inr nofun

theorem inv_offering (es : List Input) : (offering es).Inv := by
  refine ⟨⟨rfl, rfl⟩, ⟨rfl, nofun⟩, Or.inl ?_⟩
  constructor
  · rfl
  · rfl
  · rfl
  · intro t ht; cases ht
  · intro a ha; cases ha
  · exact List.nodup_nil
  · intro i hi hs; cases hi; cases hs
  · intro _; rfl
  · intro rw h
    cases h
    exact ⟨rfl, rfl, rfl⟩
  · intro h; cases h

theorem witness_OffersAreHeldUntilAccepted :
    (writing [.foreign (.write 8 1)]).Inv ∧ (writing [.foreign (.write 8 1)]).memPort = some (.write 0 0xAB) ∧
    (∃ t, step (writing [.foreign (.write 8 1)]) = .next t) ∧
    (offering [.foreign (.write 8 1)]).Inv ∧ (offering [.foreign (.write 8 1)]).respPort = some 0 ∧
    ∃ t, step (offering [.foreign (.write 8 1)]) = .next t :=
  ⟨inv_writing _, rfl, ⟨_, rfl⟩, inv_offering _, rfl, _, rfl⟩
theorem witness_StepKeepsInvariant :
    (writing [.memAccept]).Inv ∧ (∃ t, step (writing [.memAccept]) = .next t) ∧
    (awaiting [.memAnswer]).Inv ∧ (∃ t, step (awaiting [.memAnswer]) = .next t) ∧
    (offering [.respAccept]).Inv ∧ ∃ t, step (offering [.respAccept]) = .next t :=
  ⟨inv_writing _, ⟨_, rfl⟩, inv_awaiting _, ⟨_, rfl⟩, inv_offering _, _, rfl⟩

end Sys2Proof.Tests
end

section
/-!
The state at reset and at the start of a run (R33, R211). A run starts from the reset state with an instance, a memory and a command
list of the caller's, so what holds of every launch holds of the reset state.
-/

namespace Sys2Proof.Machine

/-! ### When the core is ready -/

theorem State.Idle.reqReady {s : State} (h : s.Idle) : s.reqReady = true := by
  obtain ⟨hrst, hflight, -⟩ := h
  exact (reqReady_iff s).mpr ⟨hrst, hflight⟩

theorem reqReady_of_rstN_false {s : State} (h : s.rstN = false) : s.reqReady = false := by
  simp [State.reqReady, h]

/-! ### The state a run starts from -/

section
variable (c : Config) (m : Memory) (cmds : List Request)

@[simp] theorem launch_cfg : (launch c m cmds).cfg = c := rfl
@[simp] theorem launch_mem : (launch c m cmds).mem = m := rfl
@[simp] theorem launch_rstN : (launch c m cmds).rstN = true := rfl
@[simp] theorem launch_flight : (launch c m cmds).flight = none := rfl
@[simp] theorem launch_memPort : (launch c m cmds).memPort = none := rfl
@[simp] theorem launch_respPort : (launch c m cmds).respPort = none := rfl
@[simp] theorem launch_responses : (launch c m cmds).responses = [] := rfl
@[simp] theorem launch_seq : (launch c m cmds).seq = 0 := rfl
@[simp] theorem launch_faults : (launch c m cmds).faults = [] := rfl
@[simp] theorem launch_inputs : (launch c m cmds).inputs = cmds.map .command := rfl

theorem launch_idle : (launch c m cmds).Idle :=
  ⟨launch_rstN c m cmds, launch_flight c m cmds, launch_memPort c m cmds, launch_respPort c m cmds, launch_faults c m cmds⟩

end

/-- The reset state is the launch of no commands, on the default instance and on memory that nothing has written (log 1). -/
theorem reset_eq_launch : State.reset = launch Config.default [] [] := rfl

theorem reset_idle : State.reset.Idle := reset_eq_launch ▸ launch_idle Config.default [] []

/-- Settles O1: an idle state is ready, every launch is idle, and the reset state is a launch. -/
theorem resetStateIsIdleAndReady : Obligations.ResetStateIsIdleAndReady := by
  unfold Obligations.ResetStateIsIdleAndReady
  refine ⟨⟨reset_idle, reset_idle.reqReady, ?_, ?_⟩, fun _ => reqReady_of_rstN_false, fun c m cmds => ?_⟩
  · rw [reset_eq_launch, launch_seq]
  · rw [reset_eq_launch, launch_responses]
  · have hidle := launch_idle c m cmds
    exact ⟨hidle, hidle.reqReady, launch_seq c m cmds, launch_responses c m cmds, launch_faults c m cmds,
      launch_mem c m cmds, launch_cfg c m cmds⟩

end Sys2Proof.Machine
end

section
/-!
The six byte-order primitives (R101 to R106). Each statement has two halves: which word is the command, decided by the width code and
the direction bit of its opcode, and what the command does to its byte range. The second half is said once for every get and once for
every set, over the access that the command hands to BOP; a primitive adds only the bytes of its own width.
-/

namespace Sys2Proof

/-! ### The words of the primitives (R72, R76) -/

/-- An opcode below 8 selects a primitive; its low three bits are width code and direction (R71). -/
theorem Fields.parts_of_primitive {f : Fields} {wc dir : Nat} (hwc : wc ≤ 2) (hdir : dir ≤ 1)
    (hopc : f.opc.toNat = 2 * wc + dir) : f.sel = 0 ∧ f.rsv = 0 ∧ f.wc = wc ∧ f.dir = dir := by
  simp only [Fields.sel, Fields.rsv, Fields.wc, Fields.dir, hopc]
  omega

theorem decode_primGet {opc : BitVec 8} {wc : Nat} (hwc : wc ≤ 2) (hopc : opc.toNat = 2 * wc) (off : Offset) :
    decode (Fields.toWord ⟨opc, 0#8, off, 0#32⟩) = .ok (primGetOf wc off) := by
  obtain ⟨hsel, hrsv, hw, hdir⟩ :=
    Fields.parts_of_primitive (f := ⟨opc, 0#8, off, 0#32⟩) hwc (Nat.zero_le 1) hopc
  rw [decode_toWord, decodeFields, hsel, hrsv, hw, hdir, decodeParts_eq_ok_iff]
  exact ⟨by decide, .inl ⟨rfl, by omega, rfl, .inl ⟨rfl, rfl, rfl⟩⟩⟩

theorem decode_primSet {opc : BitVec 8} {wc : Nat} (hwc : wc ≤ 2) (hopc : opc.toNat = 2 * wc + 1) (off : Offset) {val : Value}
    (hval : val >>> (8 * 2 ^ wc) = 0#32) :
    decode (Fields.toWord ⟨opc, 0#8, off, val⟩) = .ok (primSetOf wc off val) := by
  obtain ⟨hsel, hrsv, hw, hdir⟩ := Fields.parts_of_primitive (f := ⟨opc, 0#8, off, val⟩) hwc le_rfl hopc
  rw [decode_toWord, decodeFields, hsel, hrsv, hw, hdir, decodeParts_eq_ok_iff]
  exact ⟨by decide, .inl ⟨rfl, by omega, rfl, .inr ⟨by decide, hval, rfl⟩⟩⟩

@[simp] theorem primSetOf_byte (off : Offset) (v : Byte) : primSetOf 0 off (v.setWidth 32) = .setU8 off v := by
  simp [primSetOf]

@[simp] theorem primSetOf_half (off : Offset) (v : Half) : primSetOf 1 off (v.setWidth 32) = .setU16 off v := by
  simp [primSetOf]

end Sys2Proof

namespace Sys2Proof.Machine

/-! ### What every get and every set does to its range -/

/-- Offsets of a buffer are consecutive addresses (R48). -/
theorem Sideband.address_add (b : Sideband) (off k : Nat) : b.address (off + k) = b.address off + k :=
  (Nat.add_assoc b.base off k).symm

/-- A get answers the low bytes of the number at its location (R85). -/
theorem readsAs_of_load {i : Instr} {s : State} {n : Nat} (h : (accessOf s.cfg i).action = .load n) :
    ReadsAs i s (accessOf s.cfg i).loc.off (accessOf s.cfg i).loc.width (leastLen s.cfg i)
      (fromBe (memRead s.mem (s.sideband.address (accessOf s.cfg i).loc.off) (accessOf s.cfg i).loc.width) % 256 ^ n) := by
  refine ⟨exec_of_short, fun hlen hfits => ?_⟩
  rw [exec_of_inContract ⟨hlen, hfits⟩, complete, completedMem_load h, completedValue_load h, loadedValue, narrow]

theorem fromBe_memRead_lt (m : Memory) (a n : Nat) : fromBe (memRead m a n) < 256 ^ n := by
  simpa using fromBe_lt (memRead m a n)

/-- A get that answers as many bytes as it reads narrows nothing. -/
theorem readsAs_of_load_width {i : Instr} {s : State}
    (h : (accessOf s.cfg i).action = .load (accessOf s.cfg i).loc.width) :
    ReadsAs i s (accessOf s.cfg i).loc.off (accessOf s.cfg i).loc.width (leastLen s.cfg i)
      (fromBe (memRead s.mem (s.sideband.address (accessOf s.cfg i).loc.off) (accessOf s.cfg i).loc.width)) := by
  have hread := readsAs_of_load h
  rwa [Nat.mod_eq_of_lt (fromBe_memRead_lt _ _ _)] at hread

theorem complete_store {x : Access} {bs : List Byte} (h : x.action = .store bs) (s : State) :
    complete x s = { s with mem := memWrite s.mem (s.sideband.address x.loc.off) bs }.answered .ok 0 := by
  rw [complete, completedMem_store h, completedValue_store h]

theorem read_memWrite_getElem? {m : Memory} {a k : Nat} {bs : List Byte} {b : Byte} (h : bs[k]? = some b) :
    (memWrite m a bs).read (a + k) = b := by
  obtain ⟨hk, hb⟩ := List.getElem?_eq_some_iff.mp h
  simp [read_memWrite, hk, hb]

/-- A set stores its bytes over its location and leaves the rest of memory (R47). -/
theorem writesAs_of_store {i : Instr} {s : State} {bs : List Byte} (h : (accessOf s.cfg i).action = .store bs) :
    WritesAs i s (accessOf s.cfg i).loc.off (accessOf s.cfg i).loc.width (leastLen s.cfg i) bs := by
  have hw := accessOf_store_length h
  refine ⟨exec_of_short, fun hlen hfits => ⟨memWrite s.mem (s.sideband.address (accessOf s.cfg i).loc.off) bs, ?_, hw, ?_, ?_⟩⟩
  · rw [exec_of_inContract ⟨hlen, hfits⟩, complete_store h]
  · intro k b hk
    rw [Sideband.address_add]
    exact read_memWrite_getElem? hk
  · intro a ha
    exact read_memWrite_outside _ _ _ _ (by rwa [hw])

/-! ### The number at a range of the buffer, and the bytes of a word -/

/-- `from_be` of the bytes at an offset, one byte at a time (R11, R40). -/
theorem fromBe_memRead_succ (s : State) (off n : Nat) :
    fromBe (memRead s.mem (s.sideband.address off) (n + 1)) =
      (s.buf off).toNat * 256 ^ n + fromBe (memRead s.mem (s.sideband.address (off + 1)) n) := by
  simp [memRead, fromBe, State.buf, Sideband.address_add]

theorem fromBe_memRead_one (s : State) (off : Nat) :
    fromBe (memRead s.mem (s.sideband.address off) 1) = (s.buf off).toNat := by
  rw [fromBe_memRead_succ]
  simp [memRead, fromBe]

theorem fromBe_memRead_two (s : State) (off : Nat) :
    fromBe (memRead s.mem (s.sideband.address off) 2) = (s.buf off).toNat * 256 + (s.buf (off + 1)).toNat := by
  rw [fromBe_memRead_succ, fromBe_memRead_one, pow_one]

theorem fromBe_memRead_four (s : State) (off : Nat) :
    fromBe (memRead s.mem (s.sideband.address off) 4) =
      (s.buf off).toNat * 2 ^ 24 + (s.buf (off + 1)).toNat * 2 ^ 16 +
        (s.buf (off + 2)).toNat * 2 ^ 8 + (s.buf (off + 3)).toNat := by
  rw [fromBe_memRead_succ, fromBe_memRead_succ, fromBe_memRead_two]
  ring

theorem toBe_zero (v : Nat) : toBe 0 v = [] := rfl

/-- The bytes of `to_be` are slices of the word, the most significant first (R11, R40). -/
theorem toBe_toNat_succ {w : Nat} (n : Nat) (v : BitVec w) :
    toBe (n + 1) v.toNat = v.extractLsb' (8 * n) 8 :: toBe n v.toNat := rfl

theorem toBe_byte (v : Byte) : toBe 1 v.toNat = [v] := by
  simp only [toBe_toNat_succ, toBe_zero, Nat.mul_zero, BitVec.extractLsb'_eq_self]

theorem toBe_half (v : Half) : toBe 2 v.toNat = [v.extractLsb' 8 8, v.extractLsb' 0 8] := by
  simp only [toBe_toNat_succ, toBe_zero]

theorem toBe_value (v : Value) :
    toBe 4 v.toNat = [v.extractLsb' 24 8, v.extractLsb' 16 8, v.extractLsb' 8 8, v.extractLsb' 0 8] := by
  simp only [toBe_toNat_succ, toBe_zero]

/-! ### The statements -/

/-- Settles O16: opcode 0x00 is the get of width code 0, and the number at one byte is that byte. -/
theorem getU8ReadsOneByte : Obligations.GetU8ReadsOneByte := by
  unfold Obligations.GetU8ReadsOneByte
  refine fun off s => ⟨decode_primGet (wc := 0) (by decide) rfl off, ?_⟩
  rw [← fromBe_memRead_one]
  exact readsAs_of_load_width (i := .getU8 off) rfl

/-- Settles O17: opcode 0x02 is the get of width code 1, and two bytes are read big-endian. -/
theorem getU16ReadsBigEndian : Obligations.GetU16ReadsBigEndian := by
  unfold Obligations.GetU16ReadsBigEndian
  refine fun off s => ⟨decode_primGet (wc := 1) (by decide) rfl off, ?_⟩
  rw [← fromBe_memRead_two]
  exact readsAs_of_load_width (i := .getU16 off) rfl

/-- Settles O18: opcode 0x04 is the get of width code 2, and four bytes are read big-endian. -/
theorem getU32ReadsBigEndian : Obligations.GetU32ReadsBigEndian := by
  unfold Obligations.GetU32ReadsBigEndian
  refine fun off s => ⟨decode_primGet (wc := 2) (by decide) rfl off, ?_⟩
  rw [← fromBe_memRead_four]
  exact readsAs_of_load_width (i := .getU32 off) rfl

/-- Settles O19: opcode 0x01 is the set of width code 0, and it stores the operand itself. -/
theorem setU8WritesOneByte : Obligations.SetU8WritesOneByte := by
  unfold Obligations.SetU8WritesOneByte
  intro off v s
  constructor
  · rw [← primSetOf_byte]
    exact decode_primSet (by decide) rfl off (Laws.WellFormedEncoding.byte_operand v)
  · rw [← toBe_byte]
    exact writesAs_of_store (i := .setU8 off v) rfl

/-- Settles O20: opcode 0x03 is the set of width code 1, and `to_be` puts the high byte first. -/
theorem setU16WritesBigEndian : Obligations.SetU16WritesBigEndian := by
  unfold Obligations.SetU16WritesBigEndian
  intro off v s
  constructor
  · rw [← primSetOf_half]
    exact decode_primSet (by decide) rfl off (Laws.WellFormedEncoding.half_operand v)
  · rw [← toBe_half]
    exact writesAs_of_store (i := .setU16 off v) rfl

/-- Settles O21: opcode 0x05 is the set of width code 2, and `to_be` puts the four bytes in falling weight. -/
theorem setU32WritesBigEndian : Obligations.SetU32WritesBigEndian := by
  unfold Obligations.SetU32WritesBigEndian
  refine fun off v s => ⟨decode_primSet (wc := 2) (by decide) rfl off (Laws.WellFormedEncoding.value_operand v), ?_⟩
  rw [← toBe_value]
  exact writesAs_of_store (i := .setU32 off v) rfl

end Sys2Proof.Machine
end

section
/-!
The fourteen header field accessors (R120 to R137). A field is a row of the constant table: selector, offset, width and least length
(R120). What a get and a set of a field do is said once over the table; an accessor adds only its opcode and the bytes of its width.
-/

namespace Sys2Proof

/-! ### The words of the field accessors (R71, R72, R76) -/

/-- The opcode of a field accessor is its selector and its direction; the reserved bit and the width code are 0 (R71). -/
theorem Fields.parts_of_field {f : Fields} {sel dir : Nat} (hdir : dir ≤ 1) (hopc : f.opc.toNat = 16 * sel + dir) :
    f.sel = sel ∧ f.rsv = 0 ∧ f.wc = 0 ∧ f.dir = dir := by
  simp only [Fields.sel, Fields.rsv, Fields.wc, Fields.dir, hopc]
  omega

theorem decode_fieldGet {F : Field} {sel : Nat} {opc : BitVec 8} (hsel : Field.ofSel sel = some F)
    (hopc : opc.toNat = 16 * sel) : decode (Fields.toWord ⟨opc, 0#8, 0#16, 0#32⟩) = .ok (fieldGetOf F) := by
  obtain ⟨hs, hrsv, hw, hdir⟩ := Fields.parts_of_field (f := ⟨opc, 0#8, 0#16, 0#32⟩) (Nat.zero_le 1) hopc
  rw [decode_toWord, decodeFields, hs, hrsv, hw, hdir, decodeParts_eq_ok_iff]
  exact ⟨by decide, .inr (.inl ⟨F, hsel, rfl, rfl, rfl, .inl ⟨rfl, rfl, rfl⟩⟩)⟩

theorem decode_fieldSet {F : Field} {sel : Nat} {opc : BitVec 8} (hsel : Field.ofSel sel = some F)
    (hopc : opc.toNat = 16 * sel + 1) {val : Value} (hval : val >>> (8 * (Machine.fieldLocation F).width) = 0#32) :
    decode (Fields.toWord ⟨opc, 0#8, 0#16, val⟩) = .ok (fieldSetOf F val) := by
  obtain ⟨hs, hrsv, hw, hdir⟩ := Fields.parts_of_field (f := ⟨opc, 0#8, 0#16, val⟩) le_rfl hopc
  rw [decode_toWord, decodeFields, hs, hrsv, hw, hdir, decodeParts_eq_ok_iff]
  exact ⟨by decide, .inr (.inl ⟨F, hsel, rfl, rfl, rfl, .inr ⟨by decide, hval, rfl⟩⟩)⟩

@[simp] theorem fieldSetOf_version (v : Byte) : fieldSetOf .version (v.setWidth 32) = .setVersion v := by
  simp [fieldSetOf]

@[simp] theorem fieldSetOf_type (v : Byte) : fieldSetOf .type (v.setWidth 32) = .setType v := by
  simp [fieldSetOf]

@[simp] theorem fieldSetOf_length (v : Half) : fieldSetOf .length (v.setWidth 32) = .setLength v := by
  simp [fieldSetOf]

@[simp] theorem fieldSetOf_statsType (v : Half) : fieldSetOf .statsType (v.setWidth 32) = .setStatsType v := by
  simp [fieldSetOf]

end Sys2Proof

namespace Sys2Proof.Machine

/-! ### The access of a field accessor -/

/-- `to_be` looks at the low `n` bytes of the number only (R11). -/
theorem toBe_mod (n v : Nat) : toBe n (v % 256 ^ n) = toBe n v := by
  rw [← toBe_add_mul n (v / 256 ^ n), Nat.div_add_mod']

/-- Cutting the operand to the width of its field loses no byte that is stored (R74). -/
theorem fieldSet_setWidth {F : Field} {w : Nat} (hw : 2 ^ w = 256 ^ (fieldLocation F).width) (v : Value) :
    fieldSet F (v.setWidth w).toNat = fieldSet F v.toNat := by
  rw [fieldSet, fieldSet, BitVec.toNat_setWidth, hw, toBe_mod]

theorem accessOf_fieldGetOf (c : Config) (F : Field) : accessOf c (fieldGetOf F) = fieldGet F := by
  cases F <;> rfl

theorem accessOf_fieldSetOf (c : Config) (F : Field) (v : Value) : accessOf c (fieldSetOf F v) = fieldSet F v.toNat := by
  cases F with
  | version | type | length | statsType => exact fieldSet_setWidth rfl v
  | xid | experimenterId | experimenterSubtype => rfl

theorem leastLen_fieldGetOf (c : Config) (F : Field) : leastLen c (fieldGetOf F) = fieldMinLen F := by
  rw [← accessOf_minLen, accessOf_fieldGetOf, fieldGet]

theorem leastLen_fieldSetOf (c : Config) (F : Field) (v : Value) : leastLen c (fieldSetOf F v) = fieldMinLen F := by
  rw [← accessOf_minLen, accessOf_fieldSetOf, fieldSet]

/-! ### What the get and the set of a field do (R121) -/

theorem readsAs_fieldGetOf (F : Field) (s : State) :
    ReadsAs (fieldGetOf F) s (fieldLocation F).off (fieldLocation F).width (fieldMinLen F)
      (fromBe (memRead s.mem (s.sideband.address (fieldLocation F).off) (fieldLocation F).width)) := by
  have h := readsAs_of_load_width (i := fieldGetOf F) (s := s) (by rw [accessOf_fieldGetOf, fieldGet])
  rwa [accessOf_fieldGetOf, leastLen_fieldGetOf] at h

theorem writesAs_fieldSetOf (F : Field) (v : Value) (s : State) :
    WritesAs (fieldSetOf F v) s (fieldLocation F).off (fieldLocation F).width (fieldMinLen F)
      (toBe (fieldLocation F).width v.toNat) := by
  have h := writesAs_of_store (i := fieldSetOf F v) (s := s) (by rw [accessOf_fieldSetOf, fieldSet])
  rwa [accessOf_fieldSetOf, leastLen_fieldSetOf] at h

/-- Both accessors of a field: its selector gives their words, its row of the table their meaning (R120, R121). -/
theorem field_accessors {F : Field} {sel : Nat} {getOpc setOpc : BitVec 8} {val : Value} {s : State} {value : Nat}
    {bytes : List Byte} (hsel : Field.ofSel sel = some F) (hget : getOpc.toNat = 16 * sel)
    (hset : setOpc.toNat = 16 * sel + 1) (hval : val >>> (8 * (fieldLocation F).width) = 0#32)
    (hvalue : fromBe (memRead s.mem (s.sideband.address (fieldLocation F).off) (fieldLocation F).width) = value)
    (hbytes : toBe (fieldLocation F).width val.toNat = bytes) :
    decode (Fields.toWord ⟨getOpc, 0#8, 0#16, 0#32⟩) = .ok (fieldGetOf F) ∧
    ReadsAs (fieldGetOf F) s (fieldLocation F).off (fieldLocation F).width (fieldMinLen F) value ∧
    decode (Fields.toWord ⟨setOpc, 0#8, 0#16, val⟩) = .ok (fieldSetOf F val) ∧
    WritesAs (fieldSetOf F val) s (fieldLocation F).off (fieldLocation F).width (fieldMinLen F) bytes := by
  subst hvalue hbytes
  exact ⟨decode_fieldGet hsel hget, readsAs_fieldGetOf F s, decode_fieldSet hsel hset hval, writesAs_fieldSetOf F val s⟩

/-- The bytes of a u8 operand as `val` carries it (R74). -/
theorem toBe_byte_operand (v : Byte) : toBe 1 (v.setWidth 32).toNat = [v] := by
  rw [BitVec.toNat_setWidth_of_le (by decide), toBe_byte]

/-- The bytes of a u16 operand as `val` carries it (R74). -/
theorem toBe_half_operand (v : Half) : toBe 2 (v.setWidth 32).toNat = [v.extractLsb' 8 8, v.extractLsb' 0 8] := by
  rw [BitVec.toNat_setWidth_of_le (by decide), toBe_half]

/-! ### The statements of the seven fields -/

section
open Laws.WellFormedEncoding (byte_operand half_operand value_operand)

/-- Settles O26: selector 1 is the one byte at offset 0. -/
theorem versionAccessors : Obligations.VersionAccessors := by
  unfold Obligations.VersionAccessors
  intro v s
  rw [← fieldSetOf_version v]
  exact field_accessors (F := .version) (sel := 1) rfl rfl rfl (byte_operand v) (fromBe_memRead_one s 0) (toBe_byte_operand v)

/-- Settles O27: selector 2 is the one byte at offset 1. -/
theorem typeAccessors : Obligations.TypeAccessors := by
  unfold Obligations.TypeAccessors
  intro v s
  rw [← fieldSetOf_type v]
  exact field_accessors (F := .type) (sel := 2) rfl rfl rfl (byte_operand v) (fromBe_memRead_one s 1) (toBe_byte_operand v)

/-- Settles O28: selector 3 is the two bytes at offset 2. -/
theorem lengthAccessors : Obligations.LengthAccessors := by
  unfold Obligations.LengthAccessors
  intro v s
  rw [← fieldSetOf_length v]
  exact field_accessors (F := .length) (sel := 3) rfl rfl rfl (half_operand v) (fromBe_memRead_two s 2) (toBe_half_operand v)

/-- Settles O29: selector 4 is the four bytes at offset 4. -/
theorem xidAccessors : Obligations.XidAccessors := by
  unfold Obligations.XidAccessors
  intro v s
  exact field_accessors (F := .xid) (sel := 4) rfl rfl rfl (value_operand v) (fromBe_memRead_four s 4) (toBe_value v)

/-- Settles O30: selector 5 is the two bytes at offset 8. -/
theorem statsTypeAccessors : Obligations.StatsTypeAccessors := by
  unfold Obligations.StatsTypeAccessors
  intro v s
  rw [← fieldSetOf_statsType v]
  exact field_accessors (F := .statsType) (sel := 5) rfl rfl rfl (half_operand v) (fromBe_memRead_two s 8)
    (toBe_half_operand v)

/-- Settles O31: selector 6 is the four bytes at offset 8, and its contract is 16 bytes although the field ends at 12 (C6). -/
theorem experimenterIdAccessors : Obligations.ExperimenterIdAccessors := by
  unfold Obligations.ExperimenterIdAccessors
  intro v s
  exact field_accessors (F := .experimenterId) (sel := 6) rfl rfl rfl (value_operand v) (fromBe_memRead_four s 8)
    (toBe_value v)

/-- Settles O32: selector 7 is the four bytes at offset 12. -/
theorem experimenterSubtypeAccessors : Obligations.ExperimenterSubtypeAccessors := by
  unfold Obligations.ExperimenterSubtypeAccessors
  intro v s
  exact field_accessors (F := .experimenterSubtype) (sel := 7) rfl rfl rfl (value_operand v) (fromBe_memRead_four s 12)
    (toBe_value v)

end

/-! ### An accessor on a buffer that is in contract -/

theorem exec_fieldGetOf {F : Field} {s : State} (hlen : fieldMinLen F ≤ s.bufLen) (hfits : s.sideband.fits s.cfg) :
    exec (fieldGetOf F) s = .next (s.answered .ok (BitVec.ofNat 32
      (fromBe (memRead s.mem (s.sideband.address (fieldLocation F).off) (fieldLocation F).width)))) :=
  (readsAs_fieldGetOf F s).2 hlen hfits

theorem exec_fieldSetOf {F : Field} {s : State} (hlen : fieldMinLen F ≤ s.bufLen) (hfits : s.sideband.fits s.cfg)
    (v : Value) :
    exec (fieldSetOf F v) s = .next (State.answered
      { s with mem := memWrite s.mem (s.sideband.address (fieldLocation F).off) (toBe (fieldLocation F).width v.toNat) }
      .ok 0) := by
  rw [exec_of_inContract ⟨by rwa [leastLen_fieldSetOf], hfits⟩, accessOf_fieldSetOf, complete_store rfl, fieldSet]

/-! ### Round trip (R137) -/

/-- States that agree on a range of the buffer give the same bytes there. -/
theorem memRead_of_sameRange {t u : State} {off w : Nat} (h : SameRange t u off w) :
    memRead u.mem (u.sideband.address off) w = memRead t.mem (t.sideband.address off) w := by
  obtain ⟨-, hside, hbytes⟩ := h
  rw [hside]
  refine memRead_congr fun a hlo hhi => ?_
  obtain ⟨k, rfl⟩ := Nat.exists_eq_add_of_le hlo
  simpa only [State.buf, hside, Sideband.address_add] using hbytes k (by omega)

/-- Settles O33: what the get reads is what the set stored, and `from_be` undoes `to_be`. -/
theorem fieldRoundTrip : Obligations.FieldRoundTrip := by
  unfold Obligations.FieldRoundTrip
  intro F v s hv hlen hfits
  refine ⟨_, exec_fieldSetOf hlen hfits v, fun u hu => ?_⟩
  have hread : memRead u.mem (u.sideband.address (fieldLocation F).off) (fieldLocation F).width =
      toBe (fieldLocation F).width v.toNat := by
    rw [memRead_of_sameRange hu]
    simpa using memRead_memWrite s.mem (s.sideband.address (fieldLocation F).off) (toBe (fieldLocation F).width v.toNat)
  obtain ⟨hcfg, hside, -⟩ := hu
  rw [State.answered_cfg] at hcfg
  rw [State.answered_sideband] at hside
  rw [exec_fieldGetOf (by rwa [State.bufLen, hcfg, hside]) (by rwa [hcfg, hside]), hread, fromBe_toBe hv,
    BitVec.ofNat_toNat, BitVec.setWidth_eq]

/-! ### The message type (R54, R122) -/

/-- `MemRead` does not see a write below its range. -/
theorem memRead_write_below {m : Memory} {a a' : Nat} (h : a' < a) (b : Byte) (n : Nat) :
    memRead (m.write a' b) a n = memRead m a n :=
  memRead_congr fun _ hlo _ => Memory.read_write_other m b (by omega)

/-- `MemWrite` of the same bytes keeps two memories alike where they are alike. -/
theorem read_memWrite_congr {m m' : Memory} {k : Nat} (h : m.read k = m'.read k) (a : Nat) (bs : List Byte) :
    (memWrite m a bs).read k = (memWrite m' a bs).read k := by
  rw [read_memWrite, read_memWrite, h]

/-- Settles O36: the fields of the stats and experimenter accessors lie above byte 1, so a get does not read it; a set stores the
same bytes whatever it holds. -/
theorem messageTypeGatesNothing : Obligations.MessageTypeGatesNothing := by
  unfold Obligations.MessageTypeGatesNothing
  intro F v b s hF hlen hfits
  have habove : s.sideband.address 1 < s.sideband.address (fieldLocation F).off := by
    have hoff : 1 < (fieldLocation F).off := by rcases hF with rfl | rfl | rfl <;> decide
    exact Nat.add_lt_add_left hoff s.sideband.base
  refine ⟨⟨_, exec_fieldGetOf hlen hfits, ?_⟩, _, _, exec_fieldSetOf hlen hfits v,
    exec_fieldSetOf (s := { s with mem := s.mem.write (s.sideband.address 1) b }) hlen hfits v, ?_⟩
  · rintro s' rfl
    rw [← memRead_write_below habove b]
    exact exec_fieldGetOf hlen hfits
  · intro a ha
    exact read_memWrite_congr (Memory.read_write_other s.mem b ha) _ _

end Sys2Proof.Machine
end

section
/-!
The two flow-mod command accessors (R150 to R159). The router alone depends on the tag: it gives an offset and a width, and the
rest is said once for any location it gives. A statement adds the two locations, 56 with two bytes and 25 with one.
-/

namespace Sys2Proof

/-! ### The words of the flow-mod command accessors (R72, R76) -/

theorem decode_getCommand (ver : VersionTag) :
    decode (Fields.toWord ⟨0x80#8, ver, 0#16, 0#32⟩) = .ok (.getCommand ver) := by
  obtain ⟨hsel, hrsv, hw, hdir⟩ :=
    Fields.parts_of_field (f := ⟨0x80#8, ver, 0#16, 0#32⟩) (sel := 8) (Nat.zero_le 1) rfl
  rw [decode_toWord, decodeFields, hsel, hrsv, hw, hdir, decodeParts_eq_ok_iff]
  exact ⟨by decide, .inr (.inr ⟨rfl, rfl, rfl, .inl ⟨rfl, rfl, rfl⟩⟩)⟩

theorem decode_setCommand (ver : VersionTag) (v : Byte) :
    decode (Fields.toWord ⟨0x81#8, ver, 0#16, v.setWidth 32⟩) = .ok (.setCommand ver v) := by
  obtain ⟨hsel, hrsv, hw, hdir⟩ :=
    Fields.parts_of_field (f := ⟨0x81#8, ver, 0#16, v.setWidth 32⟩) (sel := 8) le_rfl rfl
  rw [decode_toWord, decodeFields, hsel, hrsv, hw, hdir, decodeParts_eq_ok_iff]
  exact ⟨by decide, .inr (.inr ⟨rfl, rfl, rfl, .inr ⟨by decide, Laws.WellFormedEncoding.byte_operand v, by simp⟩⟩)⟩

end Sys2Proof

namespace Sys2Proof.Machine

/-! ### The router (R150) and the contract (R52) -/

theorem flowModLocation_of_eq {c : Config} {ver : VersionTag} (h : ver = c.verOneZero) :
    flowModLocation c ver = ⟨56, 2⟩ := if_pos h

theorem flowModLocation_of_ne {c : Config} {ver : VersionTag} (h : ver ≠ c.verOneZero) :
    flowModLocation c ver = ⟨25, 1⟩ := if_neg h

/-- Neither location holds the version byte of the buffer. -/
theorem flowModLocation_off_pos (c : Config) (ver : VersionTag) : 0 < (flowModLocation c ver).off := by
  unfold flowModLocation
  split <;> decide

theorem accessOf_getCommand (c : Config) (ver : VersionTag) :
    accessOf c (.getCommand ver) = ⟨flowModLocation c ver, flowModMinLen c ver, .load 1⟩ := rfl

theorem accessOf_setCommand (c : Config) (ver : VersionTag) (v : Byte) :
    accessOf c (.setCommand ver v) =
      ⟨flowModLocation c ver, flowModMinLen c ver, .store (toBe (flowModLocation c ver).width v.toNat)⟩ := rfl

theorem leastLen_getCommand (c : Config) (ver : VersionTag) :
    leastLen c (.getCommand ver) = (flowModLocation c ver).off + (flowModLocation c ver).width :=
  flowModMinLen_eq c ver

theorem leastLen_setCommand (c : Config) (ver : VersionTag) (v : Byte) :
    leastLen c (.setCommand ver v) = (flowModLocation c ver).off + (flowModLocation c ver).width :=
  flowModMinLen_eq c ver

/-! ### What the two accessors do at the location the router gives (R152, R153) -/

section
variable {ver : VersionTag} {s : State} {off w : Nat}

/-- The low byte of the number at the routed location is the value (R154). -/
theorem readsAs_getCommand (h : flowModLocation s.cfg ver = ⟨off, w⟩) :
    ReadsAs (.getCommand ver) s off w (off + w) (fromBe (memRead s.mem (s.sideband.address off) w) % 256) := by
  have hread := readsAs_of_load (i := .getCommand ver) (s := s) (n := 1) rfl
  rwa [leastLen_getCommand, accessOf_getCommand, h] at hread

/-- The operand, zero-extended to the routed width, is stored (R159). -/
theorem writesAs_setCommand (h : flowModLocation s.cfg ver = ⟨off, w⟩) (v : Byte) :
    WritesAs (.setCommand ver v) s off w (off + w) (toBe w v.toNat) := by
  have hwrite := writesAs_of_store (i := .setCommand ver v) (s := s) rfl
  rwa [leastLen_setCommand, accessOf_setCommand, h] at hwrite

/-- A get reads each byte of the routed location once, also those it drops. -/
theorem transactions_getCommand (h : flowModLocation s.cfg ver = ⟨off, w⟩) :
    transactions (accessOf s.cfg (.getCommand ver)) s.sideband = readTxns (s.sideband.address off) w := by
  rw [accessOf_getCommand, h, transactions]

end

/-! ### The accessors on a buffer that is in contract -/

theorem exec_getCommand {ver : VersionTag} {s : State} (hin : InContract s.cfg (.getCommand ver) s.sideband) :
    exec (.getCommand ver) s = .next (s.answered .ok (loadedValue 1
      (memRead s.mem (s.sideband.address (flowModLocation s.cfg ver).off) (flowModLocation s.cfg ver).width))) := by
  rw [exec_of_inContract hin, complete, completedMem_load rfl, completedValue_load rfl, accessOf_getCommand]

theorem exec_setCommand {ver : VersionTag} {v : Byte} {s : State}
    (hin : InContract s.cfg (.setCommand ver v) s.sideband) :
    exec (.setCommand ver v) s = .next (State.answered
      { s with
        mem := memWrite s.mem (s.sideband.address (flowModLocation s.cfg ver).off)
          (toBe (flowModLocation s.cfg ver).width v.toNat) }
      .ok 0) := by
  rw [exec_of_inContract hin, complete_store rfl, accessOf_setCommand]

/-! ### One byte and two -/

/-- Two bytes put together, as a number. -/
theorem toNat_append_byte (hi lo : Byte) : (hi ++ lo).toNat = hi.toNat * 256 + lo.toNat := by
  rw [BitVec.toNat_append, ← Nat.shiftLeft_add_eq_or_of_lt lo.isLt, Nat.shiftLeft_eq]

/-- The low byte of a number of two bytes is the second of them, whatever the first (R154). -/
theorem low_byte (hi lo : Byte) : (hi.toNat * 256 + lo.toNat) % 256 = lo.toNat := by
  rw [Nat.mul_add_mod', Nat.mod_eq_of_lt lo.isLt]

/-- A byte widened to two has a high byte of zero (R153, R159). -/
theorem toBe_two_byte (v : Byte) : toBe 2 v.toNat = [0, v] := by
  simpa [fromBe] using toBe_fromBe [0, v]

/-! ### The statements -/

/-- Settles O37: two bytes at 56 and the low one kept, or the one byte at 25, as the router says. -/
theorem getCommandRoutesAndNarrows : Obligations.GetCommandRoutesAndNarrows := by
  unfold Obligations.GetCommandRoutesAndNarrows
  refine fun ver s => ⟨decode_getCommand ver, fun h => ?_, fun h => ?_⟩
  · have hloc := flowModLocation_of_eq h
    rw [← fromBe_memRead_two s 56]
    exact ⟨readsAs_getCommand hloc, transactions_getCommand hloc⟩
  · have hloc := flowModLocation_of_ne h
    rw [← Nat.mod_eq_of_lt (s.buf 25).isLt, ← fromBe_memRead_one s 25]
    exact ⟨readsAs_getCommand hloc, transactions_getCommand hloc⟩

/-- Settles O38: the operand in two bytes at 56, the first of them zero, or in one byte at 25. -/
theorem setCommandRoutesAndWidens : Obligations.SetCommandRoutesAndWidens := by
  unfold Obligations.SetCommandRoutesAndWidens
  refine fun ver v s => ⟨decode_setCommand ver v, fun h => ?_, fun h => ?_⟩
  · rw [← toBe_two_byte]
    exact writesAs_setCommand (flowModLocation_of_eq h) v
  · rw [← toBe_byte]
    exact writesAs_setCommand (flowModLocation_of_ne h) v

/-- Settles O39: the number of the two bytes is what `get_u16` answers, and its remainder by 256 is the byte at 57. -/
theorem narrowingDropsTheHighByte : Obligations.NarrowingDropsTheHighByte := by
  unfold Obligations.NarrowingDropsTheHighByte
  intro s hlen hfits
  constructor
  · obtain ⟨-, hroute, -⟩ := getCommandRoutesAndNarrows s.cfg.verOneZero s
    obtain ⟨⟨-, hget⟩, -⟩ := hroute rfl
    rw [hget hlen hfits, low_byte, BitVec.ofNat_toNat]
  · obtain ⟨-, -, hget⟩ := getU16ReadsBigEndian 56 s
    rw [← BitVec.ofNat_toNat, toNat_append_byte]
    exact hget hlen hfits

/-- Settles O41: the routed location lies above byte 0, so a get does not read it; a set stores the same bytes whatever it
holds. -/
theorem versionComesFromTheOperand : Obligations.VersionComesFromTheOperand := by
  unfold Obligations.VersionComesFromTheOperand
  intro ver v b s hin
  have habove : s.sideband.address 0 < s.sideband.address (flowModLocation s.cfg ver).off :=
    Nat.add_lt_add_left (flowModLocation_off_pos s.cfg ver) s.sideband.base
  refine ⟨⟨_, exec_getCommand hin, ?_⟩, _, _, exec_setCommand hin,
    exec_setCommand (s := { s with mem := s.mem.write (s.sideband.address 0) b }) hin, ?_⟩
  · rintro s' rfl
    rw [← memRead_write_below habove b]
    exact exec_getCommand hin
  · intro a ha
    exact read_memWrite_congr (Memory.read_write_other s.mem b ha) _ _

/-- Settles O42: `MINLEN` is the end of the routed location, 26 or 58. -/
theorem commandBoundaryLengths : Obligations.CommandBoundaryLengths := by
  unfold Obligations.CommandBoundaryLengths
  intro ver v s hver hfits
  have hother := flowModLocation_of_ne hver
  have hone := flowModLocation_of_eq (c := s.cfg) rfl
  refine ⟨fun hlen => ⟨⟨_, (readsAs_getCommand hother).2 hlen.ge hfits⟩, ?_⟩, fun _ hlen => ?_, fun hlen => ?_⟩
  · obtain ⟨m, hset, -⟩ := (writesAs_setCommand hother v).2 hlen.ge hfits
    exact ⟨_, hset⟩
  · have hshort : s.bufLen < 58 := by omega
    exact ⟨(readsAs_getCommand hone).1 hshort, (writesAs_setCommand hone v).1 hshort⟩
  · exact ⟨⟨_, (readsAs_getCommand hother).2 (by omega) hfits⟩, _, (readsAs_getCommand hone).2 hlen.ge hfits⟩

end Sys2Proof.Machine
end

section
/-!
The illegal word (R78, R173). As one transition it is answered at once. At the ports its flight has no transactions, so the request
handshake offers the response, and the response handshake ends it.
-/

namespace Sys2Proof.Machine

/-! ### The handshakes of a request that needs no transaction (R57, R87) -/

/-- With nothing left to do, the response is what comes next (R57). -/
theorem offerNext_of_done {f : Flight} (htodo : f.todo = []) (hunanswered : f.unanswered = []) (s : State) :
    offerNext f s = { s with flight := some f, respPort := some (responseOf s.cfg f) } := by
  rcases offerNext_cases f s with ⟨k, t, ht, -⟩ | ⟨-, -, hoffer⟩ | ⟨-, hwaits, -⟩
  · rw [htodo] at ht
    cases ht
  · exact hoffer
  · exact absurd hunanswered hwaits

/-- The flight of an illegal word makes no transaction: its response is on the port (R78, R173). -/
theorem acceptRequest_of_illegal {r : Request} {e : Illegal} (hdecode : decode r.word = .error e) (s : State) :
    acceptRequest r s = .next { s.withSideband r.side with
      flight := some (newFlight r none []), respPort := some (responseWord .illegal 0) } := by
  rcases acceptRequest_cases r s with ⟨_, -, haccept⟩ | ⟨i, hok, -⟩ | ⟨i, _, hok, -⟩
  · rw [haccept, offerNext_of_done rfl rfl]
    rfl
  · cases hdecode.symm.trans hok
  · cases hdecode.symm.trans hok

theorem issue_of_illegal {r : Request} {e : Illegal} (hdecode : decode r.word = .error e) (s : State) :
    issue r s = .next (answerIllegal (s.withSideband r.side)) := by
  rw [issue, hdecode]

/-- The step that accepts an offered response completes the command (R21, R87). -/
theorem step_respAccept {s : State} {f : Flight} {rw : ResponseWord} {rest : List Input} (hfaults : s.faults = [])
    (hinputs : s.inputs = .respAccept :: rest) (hflight : s.flight = some f) (hresp : s.respPort = some rw) :
    step s = .next { s with
      inputs := rest, flight := none, respPort := none, responses := s.responses ++ [rw], seq := s.seq + 1 } := by
  rw [step_input hfaults hinputs nofun, takeInput, acceptResponse, hflight, hresp]

/-! ### The statement -/

/-- Status 1 over value 0 as a number (R85). -/
theorem responseWord_illegal_zero : responseWord .illegal 0 = 0x100000000 := by decide

/-- Settles O11: the word decodes to no command, so neither route has an access to make, and both give the same response. -/
theorem illegalWordIsAnsweredWithStatusOne : Obligations.IllegalWordIsAnsweredWithStatusOne := by
  unfold Obligations.IllegalWordIsAnsweredWithStatusOne
  intro s r rest e hfaults hidle hdecode
  rw [← responseWord_illegal_zero]
  constructor
  · intro hinputs
    rw [step_input hfaults hinputs fun _ => hidle.reqReady, takeInput, issue_of_illegal hdecode]
    rfl
  · intro hinputs
    have hrequest := step_input hfaults hinputs fun _ => hidle.reqReady
    rw [takeInput, acceptRequest_of_illegal hdecode] at hrequest
    obtain ⟨hrst, -, hmem, -, -⟩ := hidle
    exact ⟨_, hrequest, hmem, rfl, rfl, _, step_respAccept hfaults rfl rfl rfl,
      ⟨hrst, rfl, hmem, rfl, hfaults⟩, rfl, rfl, rfl, rfl⟩

end Sys2Proof.Machine
end

section
/-!
Reset (R200). The fall of `rst_n` abandons the command in flight and takes every port off; while `rst_n = 0` the core is not ready, so
an offered request waits; the rise changes nothing but `rst_n`, so the core is idle after it.
-/

namespace Sys2Proof.Machine

theorem step_resetFalls {s : State} {rest : List Input} (hfaults : s.faults = []) (hinputs : s.inputs = .resetFalls :: rest) :
    step s = .next (resetFall { s with inputs := rest }) := by
  rw [step_input hfaults hinputs nofun, takeInput]

theorem step_resetRises {s : State} {rest : List Input} (hfaults : s.faults = []) (hinputs : s.inputs = .resetRises :: rest) :
    step s = .next (resetRise { s with inputs := rest }) := by
  rw [step_input hfaults hinputs nofun, takeInput]

/-- While `rst_n = 0` an offer on the request port is not taken, and the caller goes on holding it (R87, R200). -/
theorem step_offer_of_rstN_false {s : State} {x : Input} {rest : List Input} (hfaults : s.faults = []) (hrst : s.rstN = false)
    (hoffer : x.waitsForReady = true) : step { s with inputs := x :: rest } = .next { s with inputs := x :: rest } :=
  step_waits (s := { s with inputs := x :: rest }) hfaults rfl hoffer (reqReady_of_rstN_false hrst)

/-- The core is idle when `rst_n` rises, if nothing is in flight and no port is valid (R200). -/
theorem resetRise_idle {s : State} (hflight : s.flight = none) (hmem : s.memPort = none) (hresp : s.respPort = none)
    (hfaults : s.faults = []) : (resetRise s).Idle :=
  ⟨resetRise_rstN s, hflight, hmem, hresp, hfaults⟩

/-- Settles O3: the fall gives a state with no flight and no valid port, in which a request waits; the rise makes it idle. -/
theorem resetAbandonsAndKeepsMemory : Obligations.ResetAbandonsAndKeepsMemory := by
  unfold Obligations.ResetAbandonsAndKeepsMemory
  intro s rest hfaults hinputs
  refine ⟨_, step_resetFalls hfaults hinputs, resetFall_rstN _, resetFall_flight _, resetFall_memPort _, resetFall_respPort _,
    resetFall_mem _, resetFall_cfg _, reqReady_of_rstN_false (resetFall_rstN _), resetFall_inputs _, fun r rest' => ?_,
    fun rest' => ?_⟩
  · exact ⟨step_offer_of_rstN_false hfaults rfl rfl, step_offer_of_rstN_false hfaults rfl rfl⟩
  · have hidle : (resetRise { resetFall { s with inputs := rest } with inputs := rest' }).Idle :=
      resetRise_idle rfl rfl rfl hfaults
    exact ⟨_, step_resetRises hfaults rfl, hidle, hidle.reqReady, rfl, rfl⟩

end Sys2Proof.Machine
end

section
/-!
Encoding (R70 to R84). The encoder and the decoder undo each other; so a word is a command exactly when its fields are well-formed,
and the opcode map of R84 says the same of the word's bits, one row per opcode.
-/

namespace Sys2Proof

/-! ### Encoding, then decoding (R72, R76, R77) -/

section
open Laws.WellFormedEncoding (byte_operand half_operand value_operand)

/-- Settles O4: a command is a get or a set of one of the three kinds, and each kind's words are decoded by a lemma of its own. -/
theorem decodeOfEncode : Obligations.DecodeOfEncode := by
  unfold Obligations.DecodeOfEncode
  intro i
  cases i with
  | getU8 off => exact decode_primGet (wc := 0) (by decide) rfl off
  | getU16 off => exact decode_primGet (wc := 1) (by decide) rfl off
  | getU32 off => exact decode_primGet (wc := 2) (by decide) rfl off
  | setU8 off v =>
    exact (decode_primSet (wc := 0) (by decide) rfl off (byte_operand v)).trans (congrArg Except.ok (primSetOf_byte off v))
  | setU16 off v =>
    exact (decode_primSet (wc := 1) (by decide) rfl off (half_operand v)).trans (congrArg Except.ok (primSetOf_half off v))
  | setU32 off v => exact decode_primSet (wc := 2) (by decide) rfl off (value_operand v)
  | getVersion => exact decode_fieldGet (F := .version) (sel := 1) rfl rfl
  | getType => exact decode_fieldGet (F := .type) (sel := 2) rfl rfl
  | getLength => exact decode_fieldGet (F := .length) (sel := 3) rfl rfl
  | getXid => exact decode_fieldGet (F := .xid) (sel := 4) rfl rfl
  | getStatsType => exact decode_fieldGet (F := .statsType) (sel := 5) rfl rfl
  | getExperimenterId => exact decode_fieldGet (F := .experimenterId) (sel := 6) rfl rfl
  | getExperimenterSubtype => exact decode_fieldGet (F := .experimenterSubtype) (sel := 7) rfl rfl
  | setVersion v =>
    exact (decode_fieldSet (sel := 1) rfl rfl (byte_operand v)).trans (congrArg Except.ok (fieldSetOf_version v))
  | setType v =>
    exact (decode_fieldSet (sel := 2) rfl rfl (byte_operand v)).trans (congrArg Except.ok (fieldSetOf_type v))
  | setLength v =>
    exact (decode_fieldSet (sel := 3) rfl rfl (half_operand v)).trans (congrArg Except.ok (fieldSetOf_length v))
  | setXid v => exact decode_fieldSet (F := .xid) (sel := 4) rfl rfl (value_operand v)
  | setStatsType v =>
    exact (decode_fieldSet (sel := 5) rfl rfl (half_operand v)).trans (congrArg Except.ok (fieldSetOf_statsType v))
  | setExperimenterId v => exact decode_fieldSet (F := .experimenterId) (sel := 6) rfl rfl (value_operand v)
  | setExperimenterSubtype v => exact decode_fieldSet (F := .experimenterSubtype) (sel := 7) rfl rfl (value_operand v)
  | getCommand ver => exact decode_getCommand ver
  | setCommand ver v => exact decode_setCommand ver v

end

/-! ### Decoding, then encoding (R84) -/

/-- Cutting `val` to an operand's width and widening it again loses nothing if the bits above are zero (R72). -/
theorem setWidth_setWidth_of_shift {val : Value} {w : Nat} (hw : w ≤ 32) (hval : val >>> w = 0#32) :
    (val.setWidth w).setWidth 32 = val := by
  have hlt : val.toNat < 2 ^ w := by
    have hdiv := congrArg BitVec.toNat hval
    rw [BitVec.toNat_ushiftRight, Nat.shiftRight_eq_div_pow, BitVec.toNat_ofNat, Nat.zero_mod] at hdiv
    exact (Nat.div_eq_zero_iff_lt (Nat.two_pow_pos w)).mp hdiv
  apply BitVec.eq_of_toNat_eq
  rw [BitVec.toNat_setWidth_of_le hw, BitVec.toNat_setWidth, Nat.mod_eq_of_lt hlt]

/-- Fields are known from their opcode's number and the other three (R70). -/
theorem Fields.eq_of_opc {f g : Fields} (hopc : f.opc.toNat = g.opc.toNat) (hver : f.ver = g.ver) (hoff : f.off = g.off)
    (hval : f.val = g.val) : f = g := by
  cases f
  cases g
  simp_all [BitVec.toNat_inj]

theorem encodeFields_primGetOf {wc : Nat} (hwc : wc ≤ 2) (off : Offset) :
    encodeFields (primGetOf wc off) = ⟨BitVec.ofNat 8 (2 * wc), 0#8, off, 0#32⟩ := by
  interval_cases wc <;> rfl

theorem encodeFields_primSetOf {wc : Nat} (hwc : wc ≤ 2) (off : Offset) {val : Value} (hval : val >>> (8 * 2 ^ wc) = 0#32) :
    encodeFields (primSetOf wc off val) = ⟨BitVec.ofNat 8 (2 * wc + 1), 0#8, off, val⟩ := by
  interval_cases wc
  · simp [primSetOf, encodeFields, setWidth_setWidth_of_shift (w := 8) (by decide) hval]
  · simp [primSetOf, encodeFields, setWidth_setWidth_of_shift (w := 16) (by decide) hval]
  · rfl

/-- The selector of a fixed field (R71, R120). -/
def Field.sel : Field → Nat
  | .version => 1
  | .type => 2
  | .length => 3
  | .xid => 4
  | .statsType => 5
  | .experimenterId => 6
  | .experimenterSubtype => 7

theorem Field.ofSel_eq_some_iff {n : Nat} {F : Field} : Field.ofSel n = some F ↔ n = F.sel := by
  constructor
  · intro h
    have hn : ¬ (n = 0 ∨ 8 ≤ n) := by simp [← Field.ofSel_eq_none_iff, h]
    have hlt : n < 8 := by omega
    interval_cases n <;> simp_all [Field.ofSel] <;> subst h <;> rfl
  · rintro rfl
    cases F <;> rfl

theorem encodeFields_fieldGetOf (F : Field) :
    encodeFields (fieldGetOf F) = ⟨BitVec.ofNat 8 (16 * F.sel), 0#8, 0#16, 0#32⟩ := by
  cases F <;> rfl

theorem encodeFields_fieldSetOf (F : Field) {val : Value} (hval : val >>> (8 * (Machine.fieldLocation F).width) = 0#32) :
    encodeFields (fieldSetOf F val) = ⟨BitVec.ofNat 8 (16 * F.sel + 1), 0#8, 0#16, val⟩ := by
  cases F with
  | version | type => simp [fieldSetOf, encodeFields, Field.sel, setWidth_setWidth_of_shift (w := 8) (by decide) hval]
  | length | statsType =>
    simp [fieldSetOf, encodeFields, Field.sel, setWidth_setWidth_of_shift (w := 16) (by decide) hval]
  | xid | experimenterId | experimenterSubtype => rfl

theorem encodeFields_setCommand (ver : VersionTag) {val : Value} (hval : val >>> 8 = 0#32) :
    encodeFields (.setCommand ver (val.setWidth 8)) = ⟨0x81#8, ver, 0#16, val⟩ := by
  simp [encodeFields, setWidth_setWidth_of_shift (by decide) hval]

/-- The fields of a word that decodes are those of the command it decodes to. -/
theorem encodeFields_of_decodeFields {f : Fields} {i : Instr} (h : decodeFields f = .ok i) : encodeFields i = f := by
  rw [decodeFields, decodeParts_eq_ok_iff] at h
  obtain ⟨hrsv, h⟩ := h
  have hopc := f.opc_parts
  obtain ⟨hselLt, hrsvLt, hwcLt, hdirLt⟩ := f.parts_lt
  obtain ⟨hsel, hwc, hver, h⟩ | ⟨F, hF, hwc, hver, hoff, h⟩ | ⟨hsel, hwc, hoff, h⟩ := h
  · obtain ⟨hdir, hval, rfl⟩ | ⟨hdir, hval, rfl⟩ := h
    · rw [encodeFields_primGetOf (by omega)]
      exact Fields.eq_of_opc (by simp; omega) hver.symm rfl hval.symm
    · rw [encodeFields_primSetOf (by omega) _ hval]
      exact Fields.eq_of_opc (by simp; omega) hver.symm rfl rfl
  · rw [Field.ofSel_eq_some_iff] at hF
    obtain ⟨hdir, hval, rfl⟩ | ⟨hdir, hval, rfl⟩ := h
    · rw [encodeFields_fieldGetOf]
      exact Fields.eq_of_opc (by simp; omega) hver.symm hoff.symm hval.symm
    · rw [encodeFields_fieldSetOf _ hval]
      exact Fields.eq_of_opc (by simp; omega) hver.symm hoff.symm rfl
  · obtain ⟨hdir, hval, rfl⟩ | ⟨hdir, hval, rfl⟩ := h
    · exact Fields.eq_of_opc (by simp [encodeFields]; omega) rfl hoff.symm hval.symm
    · rw [encodeFields_setCommand _ hval]
      exact Fields.eq_of_opc (by simp; omega) rfl hoff.symm rfl

/-- Settles O5: a word is its fields, and those are the fields of what they decode to. -/
theorem encodeOfDecode : Obligations.EncodeOfDecode := by
  unfold Obligations.EncodeOfDecode
  intro cw i h
  rw [encode, encodeFields_of_decodeFields h, Fields.toWord_ofWord]

/-! ### The words that are commands (R78) -/

theorem Fields.wellFormed_iff (f : Fields) : f.wellFormed = true ↔ ∃ fmt, f.format = some fmt ∧ f.mbzOk fmt = true := by
  unfold Fields.wellFormed
  cases f.format <;> simp

theorem Fields.mbzOk_iff (f : Fields) (fmt : Format) :
    f.mbzOk fmt = true ↔
      (fmt.takesVer = true ∨ f.ver = 0#8) ∧ (fmt.takesOff = true ∨ f.off = 0#16) ∧ f.val >>> fmt.valBits = 0#32 := by
  simp [Fields.mbzOk, and_assoc]

/-- An opcode that is legal in all four of its subfields selects a format (R72), and no other does (R78). -/
theorem Fields.format_eq_none_iff (f : Fields) :
    f.format = none ↔ f.rsv = 1 ∨ (f.sel = 0 ∧ f.wc = 3) ∨ (1 ≤ f.sel ∧ f.sel ≤ 8 ∧ f.wc ≠ 0) ∨ 9 ≤ f.sel := by
  unfold Fields.format
  have hsel := Field.ofSel_eq_none_iff f.sel
  grind

/-- All that selects a format, and which (R72). -/
theorem Fields.format_eq_some_iff (f : Fields) (fmt : Format) :
    f.format = some fmt ↔
      f.rsv ≠ 1 ∧
      ((f.sel = 0 ∧ f.wc ≠ 3 ∧ (f.dir = 0 ∧ fmt = .pg ∨ f.dir ≠ 0 ∧ fmt = .ps (2 ^ f.wc))) ∨
       (∃ F, Field.ofSel f.sel = some F ∧ f.wc = 0 ∧
          (f.dir = 0 ∧ fmt = .fg ∨ f.dir ≠ 0 ∧ fmt = .fs (Machine.fieldLocation F).width)) ∨
       (f.sel = 8 ∧ f.wc = 0 ∧ (f.dir = 0 ∧ fmt = .vg ∨ f.dir ≠ 0 ∧ fmt = .vs))) := by
  have h0 : Field.ofSel 0 = none := rfl
  have h8 : Field.ofSel 8 = none := rfl
  unfold Fields.format
  cases hF : Field.ofSel f.sel with
  | none =>
    simp only [reduceCtorEq, false_and, exists_false, false_or]
    grind
  | some F =>
    simp only [Option.some.injEq, exists_eq_left']
    grind

/-- The decoder accepts exactly the well-formed fields (R72, R77). -/
theorem decodeFields_ok_iff (f : Fields) : (∃ i, decodeFields f = .ok i) ↔ f.wellFormed = true := by
  simp only [f.wellFormed_iff, f.mbzOk_iff, f.format_eq_some_iff, decodeFields, decodeParts_eq_ok_iff]
  constructor
  · rintro ⟨i, hrsv, ⟨hsel, hwc, hver, h⟩ | ⟨F, hF, hwc, hver, hoff, h⟩ | ⟨hsel, hwc, hoff, h⟩⟩
    · obtain ⟨hdir, hval, -⟩ | ⟨hdir, hval, -⟩ := h
      · exact ⟨.pg, ⟨hrsv, .inl ⟨hsel, hwc, .inl ⟨hdir, rfl⟩⟩⟩, .inr hver, .inl rfl, by simp [hval]⟩
      · exact ⟨.ps _, ⟨hrsv, .inl ⟨hsel, hwc, .inr ⟨hdir, rfl⟩⟩⟩, .inr hver, .inl rfl, hval⟩
    · obtain ⟨hdir, hval, -⟩ | ⟨hdir, hval, -⟩ := h
      · exact ⟨.fg, ⟨hrsv, .inr (.inl ⟨F, hF, hwc, .inl ⟨hdir, rfl⟩⟩)⟩, .inr hver, .inr hoff, by simp [hval]⟩
      · exact ⟨.fs _, ⟨hrsv, .inr (.inl ⟨F, hF, hwc, .inr ⟨hdir, rfl⟩⟩)⟩, .inr hver, .inr hoff, hval⟩
    · obtain ⟨hdir, hval, -⟩ | ⟨hdir, hval, -⟩ := h
      · exact ⟨.vg, ⟨hrsv, .inr (.inr ⟨hsel, hwc, .inl ⟨hdir, rfl⟩⟩)⟩, .inl rfl, .inr hoff, by simp [hval]⟩
      · exact ⟨.vs, ⟨hrsv, .inr (.inr ⟨hsel, hwc, .inr ⟨hdir, rfl⟩⟩)⟩, .inl rfl, .inr hoff, hval⟩
  · rintro ⟨fmt, ⟨hrsv, ⟨hsel, hwc, h⟩ | ⟨F, hF, hwc, h⟩ | ⟨hsel, hwc, h⟩⟩, hver, hoff, hval⟩
    · obtain ⟨hdir, rfl⟩ | ⟨hdir, rfl⟩ := h
      · simp [Format.takesVer, Format.valBits] at hver hval
        exact ⟨_, hrsv, .inl ⟨hsel, hwc, hver, .inl ⟨hdir, hval, rfl⟩⟩⟩
      · simp [Format.takesVer, Format.valBits] at hver hval
        exact ⟨_, hrsv, .inl ⟨hsel, hwc, hver, .inr ⟨hdir, hval, rfl⟩⟩⟩
    · obtain ⟨hdir, rfl⟩ | ⟨hdir, rfl⟩ := h
      · simp [Format.takesVer, Format.takesOff, Format.valBits] at hver hoff hval
        exact ⟨_, hrsv, .inr (.inl ⟨F, hF, hwc, hver, hoff, .inl ⟨hdir, hval, rfl⟩⟩)⟩
      · simp [Format.takesVer, Format.takesOff, Format.valBits] at hver hoff hval
        exact ⟨_, hrsv, .inr (.inl ⟨F, hF, hwc, hver, hoff, .inr ⟨hdir, hval, rfl⟩⟩)⟩
    · obtain ⟨hdir, rfl⟩ | ⟨hdir, rfl⟩ := h
      · simp [Format.takesOff, Format.valBits] at hoff hval
        exact ⟨_, hrsv, .inr (.inr ⟨hsel, hwc, hoff, .inl ⟨hdir, hval, rfl⟩⟩)⟩
      · simp [Format.takesOff, Format.valBits] at hoff hval
        exact ⟨_, hrsv, .inr (.inr ⟨hsel, hwc, hoff, .inr ⟨hdir, hval, rfl⟩⟩)⟩

theorem decode_error_iff (cw : CommandWord) : (∃ e, decode cw = .error e) ↔ (Fields.ofWord cw).wellFormed = false := by
  rw [← Bool.not_eq_true, ← decodeFields_ok_iff, ← decode]
  cases decode cw <;> simp

theorem Fields.wellFormed_eq_false_iff (f : Fields) :
    f.wellFormed = false ↔ f.format = none ∨ ∃ fmt, f.format = some fmt ∧ f.mbzOk fmt = false := by
  unfold Fields.wellFormed
  cases f.format <;> simp

/-- Settles O7: the decoder rejects what is not well-formed: an opcode without a format, or a 1 in a must-be-zero bit of its format. -/
theorem illegalEncodingsAreExactly : Obligations.IllegalEncodingsAreExactly := by
  unfold Obligations.IllegalEncodingsAreExactly
  intro f
  rw [decode_error_iff, Fields.ofWord_toWord, f.wellFormed_eq_false_iff, f.format_eq_none_iff]
  simp only [or_assoc]

/-! ### The opcode map (R84) -/

/-- The fields of a bitwise and are the bitwise ands of the fields (R70). -/
theorem Fields.ofWord_and (cw mask : CommandWord) :
    Fields.ofWord (cw &&& mask) =
      ⟨(ofWord cw).opc &&& (ofWord mask).opc, (ofWord cw).ver &&& (ofWord mask).ver,
        (ofWord cw).off &&& (ofWord mask).off, (ofWord cw).val &&& (ofWord mask).val⟩ := by
  simp [Fields.ofWord, BitVec.extractLsb'_and]

theorem Fields.ofWord_inj {cw cw' : CommandWord} : Fields.ofWord cw = Fields.ofWord cw' ↔ cw = cw' :=
  ⟨fun h => by rw [← Fields.toWord_ofWord cw, h, Fields.toWord_ofWord], congrArg _⟩

/-- The mask of a format: all of the opcode, and every bit that must be zero (R72, R84). -/
def Format.mask (fmt : Format) : Fields :=
  { opc := BitVec.allOnes 8
    ver := if fmt.takesVer then 0 else BitVec.allOnes 8
    off := if fmt.takesOff then 0 else BitVec.allOnes 16
    val := BitVec.allOnes 32 <<< fmt.valBits }

/-- The high bits of a value are zero exactly if the mask of them finds nothing. -/
theorem and_allOnes_shiftLeft_eq_zero_iff (val : Value) (n : Nat) :
    val &&& BitVec.allOnes 32 <<< n = 0#32 ↔ val >>> n = 0#32 := by
  rw [← BitVec.shiftLeft_ushiftRight]
  constructor
  · intro h
    ext i hi
    have hbit := congrArg (BitVec.getLsbD · (n + i)) h
    by_cases hn : n + i < 32
    · simpa [hn] using hbit
    · simp [BitVec.getLsbD_of_ge _ _ (Nat.le_of_not_lt hn)]
  · intro h
    rw [h, BitVec.zero_shiftLeft]

/-- A word is a row's command exactly if it has the row's opcode and the row's format finds no 1 that must be 0. -/
theorem and_mask_eq_iff (cw : CommandWord) (opc : BitVec 8) (fmt : Format) :
    cw &&& fmt.mask.toWord = (Fields.mk opc 0 0 0).toWord ↔
      (Fields.ofWord cw).opc = opc ∧ (Fields.ofWord cw).mbzOk fmt = true := by
  rw [← Fields.ofWord_inj, Fields.ofWord_and, Fields.ofWord_toWord, Fields.ofWord_toWord, Fields.mbzOk_iff]
  simp only [Format.mask, Fields.mk.injEq, BitVec.and_allOnes]
  split <;> split <;> simp_all [-BitVec.reduceAllOnes, and_allOnes_shiftLeft_eq_zero_iff]

/-- The opcode of a row (R84). -/
def OpcodeRow.opc (row : OpcodeRow) : BitVec 8 := row.bits.extractLsb' 0 8

/-- Every row is made of an opcode and the mask of the format that the opcode selects. -/
theorem opcodeMap_rows : ∀ row ∈ opcodeMap, ∃ fmt, (Fields.mk row.opc 0 0 0).format = some fmt ∧
    row.mask = fmt.mask.toWord ∧ row.bits = (Fields.mk row.opc 0 0 0).toWord := by
  have h : ∀ row ∈ opcodeMap, ((Fields.mk row.opc 0 0 0).format.map fun fmt => fmt.mask.toWord) = some row.mask ∧
      row.bits = (Fields.mk row.opc 0 0 0).toWord := by decide
  intro row hrow
  obtain ⟨hmask, hbits⟩ := h row hrow
  obtain ⟨fmt, hfmt, hmask⟩ := Option.map_eq_some_iff.mp hmask
  exact ⟨fmt, hfmt, hmask.symm, hbits⟩

/-- The rows have different opcodes, and they are the opcodes of the encoder. -/
theorem opcodeMap_opc_nodup : (opcodeMap.map OpcodeRow.opc).Nodup := by decide

theorem opc_encodeFields_mem (i : Instr) : (encodeFields i).opc ∈ opcodeMap.map OpcodeRow.opc := by
  cases i <;> simp only [encodeFields] <;> decide

/-- A word is a row's command exactly if it has the row's opcode and is well-formed (R84). -/
theorem row_matches_iff {row : OpcodeRow} (hrow : row ∈ opcodeMap) (cw : CommandWord) :
    cw &&& row.mask = row.bits ↔ (Fields.ofWord cw).opc = row.opc ∧ (Fields.ofWord cw).wellFormed = true := by
  obtain ⟨fmt, hfmt, hmask, hbits⟩ := opcodeMap_rows row hrow
  rw [hmask, hbits, and_mask_eq_iff]
  refine and_congr_right fun hopc => ?_
  have hformat : (Fields.ofWord cw).format = some fmt := by rw [← hfmt, ← hopc]; rfl
  simp [Fields.wellFormed_iff, hformat]

theorem decode_ok_opc_iff (cw : CommandWord) (opc : BitVec 8) :
    (∃ i, decode cw = .ok i ∧ (encodeFields i).opc = opc) ↔
      (Fields.ofWord cw).opc = opc ∧ (Fields.ofWord cw).wellFormed = true := by
  rw [← decodeFields_ok_iff]
  constructor
  · rintro ⟨i, hi, hopc⟩
    exact ⟨by rw [← hopc, encodeFields_of_decodeFields hi], i, hi⟩
  · rintro ⟨hopc, i, hi⟩
    exact ⟨i, hi, by rw [← hopc, encodeFields_of_decodeFields hi]⟩

/-- A command's word is matched by the row of its opcode. -/
theorem exists_row_of_decode {cw : CommandWord} {i : Instr} (h : decode cw = .ok i) :
    ∃ row ∈ opcodeMap, cw &&& row.mask = row.bits := by
  obtain ⟨row, hrow, hopc⟩ := List.mem_map.mp (opc_encodeFields_mem i)
  exact ⟨row, hrow, (row_matches_iff hrow cw).mpr ((decode_ok_opc_iff cw row.opc).mp ⟨i, h, hopc.symm⟩)⟩

/-- Settles O6: a row matches the well-formed words of its opcode, and the rows' opcodes are those of the commands, each once. -/
theorem opcodeMapAgreesWithDecode : Obligations.OpcodeMapAgreesWithDecode := by
  unfold Obligations.OpcodeMapAgreesWithDecode
  refine ⟨rfl, fun row hrow cw => ?_, ?_, fun cw => ?_⟩
  · rw [row_matches_iff hrow, ← decode_ok_opc_iff]
    rfl
  · refine (List.pairwise_map.mp opcodeMap_opc_nodup).imp_of_mem fun hr hr' hne cw hboth => ?_
    obtain ⟨hmatch, hmatch'⟩ := hboth
    obtain ⟨hopc, -⟩ := (row_matches_iff hr cw).mp hmatch
    obtain ⟨hopc', -⟩ := (row_matches_iff hr' cw).mp hmatch'
    exact hne (hopc.symm.trans hopc')
  · constructor
    · intro hrows
      cases hdecode : decode cw with
      | error e => exact ⟨e, rfl⟩
      | ok i =>
        obtain ⟨row, hrow, hmatch⟩ := exists_row_of_decode hdecode
        exact absurd hmatch (hrows row hrow)
    · rintro ⟨e, he⟩ row hrow hmatch
      obtain ⟨i, hi, -⟩ := (decode_ok_opc_iff cw row.opc).mpr ((row_matches_iff hrow cw).mp hmatch)
      cases he.symm.trans hi

/-- Settles O8: the opcodes of the 22 rows; a row's own bits are a word of its opcode. -/
theorem twentyTwoOpcodesAreCommands : Obligations.TwentyTwoOpcodesAreCommands := by
  unfold Obligations.TwentyTwoOpcodesAreCommands
  refine ⟨opcodeMap.map OpcodeRow.opc, rfl, opcodeMap_opc_nodup, fun opc => ⟨fun hopc => ?_, ?_⟩⟩
  · obtain ⟨row, hrow, rfl⟩ := List.mem_map.mp hopc
    obtain ⟨fmt, hfmt, -, -⟩ := opcodeMap_rows row hrow
    refine ⟨0#8, 0#16, 0#32, ?_⟩
    simp only [decode_toWord]
    exact (decodeFields_ok_iff _).mpr (Laws.WellFormedEncoding.legal fmt hfmt (.inr rfl) (.inr rfl) (by simp))
  · rintro ⟨ver, off, val, i, hi⟩
    rw [decode_toWord] at hi
    have hmem := opc_encodeFields_mem i
    rwa [encodeFields_of_decodeFields hi] at hmem

/-- Settles O9: each word is the encoder's for the command it stands for, so the decoder gives that command back. -/
theorem specExampleWordsDecode : Obligations.SpecExampleWordsDecode :=
  ⟨decodeOfEncode (.getU8 25), decodeOfEncode (.setU8 25 5), decodeOfEncode (.getU16 2), decodeOfEncode (.setU32 4 0x01020304),
    decodeOfEncode (.setVersion 1), decodeOfEncode (.getCommand 1), decodeOfEncode (.setCommand 4 5)⟩

end Sys2Proof
end

section
/-!
What every step keeps (R21, R25, R32, R46, R57, R88, R110). A step takes at most one input off the list, so a property that does not
look at the inputs is kept by every step if every input that takes effect keeps it. The pieces: what the core does after a
handshake (`Resumes`), the byte transactions of a command, then memory, ledger and ports one after the other.
-/

namespace Sys2Proof.Machine

/-! ### One step (R185) -/

/-- A property that does not look at the inputs is kept by every step if every input that takes effect keeps it. -/
theorem step_keeps {P : State → Prop} (hinputs : ∀ s is, P s → P { s with inputs := is })
    (htake : ∀ x s t, P s → s.faults = [] → (x.waitsForReady = true → s.reqReady = true) → takeInput x s = .next t → P t)
    {s t : State} (h : P s) (hstep : step s = .next t) : P t := by
  obtain ⟨hfaults, ⟨-, rfl⟩ | ⟨x, rest, -, -, -, rfl⟩ | ⟨x, rest, -, hready, htaken⟩⟩ := step_next hstep
  · exact h
  · exact h
  · exact htake x _ t (hinputs s rest h) hfaults hready htaken

/-- No input changes the parameters of the core or the inputs that follow it (R23), and only a request can record a fault (log 3). -/
theorem takeInput_frame {x : Input} {s t : State} (h : takeInput x s = .next t) :
    t.cfg = s.cfg ∧ t.inputs = s.inputs ∧ ((∀ r, x ≠ .request r) → t.faults = s.faults) := by
  cases x with
  | command r => obtain ⟨e, -, rfl⟩ | ⟨i, -, -, rfl⟩ := issue_next h <;> exact ⟨rfl, rfl, fun _ => rfl⟩
  | request r =>
    rw [takeInput] at h
    obtain ⟨e, -, haccept⟩ | ⟨i, -, -, haccept⟩ | ⟨i, f, -, -, ⟨-, -, haccept⟩ | ⟨-, haccept⟩⟩ := acceptRequest_cases r s
    all_goals cases haccept.symm.trans h
    · exact ⟨offerNext_cfg _ _, offerNext_inputs _ _, fun hne => absurd rfl (hne r)⟩
    · exact ⟨offerNext_cfg _ _, offerNext_inputs _ _, fun hne => absurd rfl (hne r)⟩
    · exact ⟨rfl, rfl, fun hne => absurd rfl (hne r)⟩
  | memAccept =>
    cases h
    obtain ⟨-, haccept⟩ | ⟨f, a, -, -, haccept⟩ | ⟨f, a, b, -, -, haccept⟩ := acceptMem_cases s <;> rw [haccept]
    · exact ⟨rfl, rfl, fun _ => rfl⟩
    · exact ⟨goOn_cfg _ _, goOn_inputs _ _, fun _ => goOn_faults _ _⟩
    · exact ⟨goOn_cfg _ _, goOn_inputs _ _, fun _ => goOn_faults _ _⟩
  | memAnswer =>
    obtain ⟨a, rest, -, rfl⟩ | ⟨f, a, rest, -, -, -, rfl⟩ := answerMem_next h
    · exact ⟨rfl, rfl, fun _ => rfl⟩
    · exact ⟨goOn_cfg _ _, goOn_inputs _ _, fun _ => goOn_faults _ _⟩
  | respAccept =>
    cases h
    obtain ⟨-, haccept⟩ | ⟨f, w, -, -, haccept⟩ := acceptResponse_cases s <;> rw [haccept] <;> exact ⟨rfl, rfl, fun _ => rfl⟩
  | resetFalls =>
    cases h
    exact ⟨rfl, rfl, fun _ => rfl⟩
  | resetRises =>
    cases h
    exact ⟨rfl, rfl, fun _ => rfl⟩
  | foreign a =>
    obtain ⟨rfl, -, -⟩ := foreignAccess_next h
    cases a <;> exact ⟨rfl, rfl, fun _ => rfl⟩

/-- Settles O14: no input changes them, and a step takes at most one. -/
theorem configNeverChanges : Obligations.ConfigNeverChanges := by
  unfold Obligations.ConfigNeverChanges
  intro s t h
  refine step_keeps (P := fun u => u.cfg = s.cfg) (fun _ _ h => h) (fun _ _ _ hcfg _ _ htake => ?_) rfl h
  obtain ⟨hkept, -⟩ := takeInput_frame htake
  exact hkept.trans hcfg

/-! ### The core goes on (R57, R88, R110) -/

/-- What the core does with the flight `f` when a handshake is over, from `s` to `t`: the flight is `g`, with the same transactions
pending, one of them offered while one remains; the response is offered as soon as nothing remains, and, unless it stood on the port
already, not before. -/
structure Resumes (s : State) (f : Flight) (t : State) (g : Flight) : Prop where
  frame : t = { s with flight := some g, memPort := t.memPort, respPort := t.respPort, fresh := t.fresh }
  same : g = { f with todo := g.todo }
  pending : (t.pending g).Perm (s.pending f)
  offered : t.memPort = none → g.todo = []
  responds : s.respPort = none → ∀ rw, t.respPort = some rw → t.memPort = none ∧ f.unanswered = [] ∧ rw = responseOf s.cfg f
  waitsOnly : t.respPort = none → t.memPort ≠ none ∨ f.unanswered ≠ []

theorem offerNext_resumes {s : State} (f : Flight) (hmem : s.memPort = none) : ∃ g, Resumes s f (offerNext f s) g := by
  rcases offerNext_cases f s with ⟨k, x, hk, hoffer⟩ | ⟨htodo, hunanswered, hoffer⟩ | ⟨htodo, hunanswered, hoffer⟩
  · obtain ⟨hlt, rfl⟩ := List.getElem?_eq_some_iff.mp hk
    refine ⟨{ f with todo := f.todo.eraseIdx k }, ?_⟩
    rw [hoffer]
    refine ⟨rfl, rfl, ?_, nofun, fun hresp rw hrw => ?_, fun _ => .inl nofun⟩
    · simpa [State.pending, hmem] using List.getElem_cons_eraseIdx_perm hlt
    · exact absurd (hresp.symm.trans hrw) nofun
  · rw [hoffer]
    exact ⟨f, rfl, rfl, .refl _, fun _ => htodo, fun _ rw hrw => ⟨hmem, hunanswered, (Option.some.inj hrw).symm⟩, nofun⟩
  · rw [hoffer]
    exact ⟨f, rfl, rfl, .refl _, fun _ => htodo, fun hresp rw hrw => absurd (hresp.symm.trans hrw) nofun, fun _ => .inr hunanswered⟩

theorem goOn_resumes (f : Flight) (s : State) : ∃ g, Resumes s f (goOn f s) g := by
  rcases goOn_cases f s with ⟨hmem, hgo⟩ | ⟨hmem, hgo⟩
  · rw [hgo]
    exact ⟨f, rfl, rfl, .refl _, fun h => absurd h hmem, fun hresp rw hrw => absurd (hresp.symm.trans hrw) nofun,
      fun _ => .inl hmem⟩
  · rw [hgo]
    exact offerNext_resumes f hmem

/-! ### The byte transactions of a command (R46, R47) -/

theorem isSet_eq_false_iff {c : Config} {i : Instr} : isSet c i = false ↔ ∃ n, (accessOf c i).action = .load n := by
  unfold isSet
  cases (accessOf c i).action <;> simp

theorem isSet_eq_true_iff {c : Config} {i : Instr} : isSet c i = true ↔ ∃ bs, (accessOf c i).action = .store bs := by
  unfold isSet
  cases (accessOf c i).action <;> simp

theorem map_addr_readTxns (a n : Nat) : (readTxns a n).map MemTxn.addr = List.range' a n := by
  induction n generalizing a with
  | zero => rfl
  | succ n ih => simp [readTxns, MemTxn.addr, ih, List.range'_succ]

theorem map_addr_writeTxns (a : Nat) (bs : List Byte) : (writeTxns a bs).map MemTxn.addr = List.range' a bs.length := by
  induction bs generalizing a with
  | nil => rfl
  | cons b bs ih => simp [writeTxns, MemTxn.addr, ih, List.range'_succ]

theorem isWrite_of_mem_readTxns {a n : Nat} {x : MemTxn} (h : x ∈ readTxns a n) : x.isWrite = false := by
  induction n generalizing a with
  | zero => cases h
  | succ n ih =>
    rcases List.mem_cons.mp h with rfl | h
    · rfl
    · exact ih h

theorem isWrite_of_mem_writeTxns {a : Nat} {bs : List Byte} {x : MemTxn} (h : x ∈ writeTxns a bs) : x.isWrite = true := by
  induction bs generalizing a with
  | nil => cases h
  | cons b bs ih =>
    rcases List.mem_cons.mp h with rfl | h
    · rfl
    · exact ih h

/-- A command makes one transaction for each address of its range. -/
theorem map_addr_transactions (c : Config) (i : Instr) (b : Sideband) :
    (transactions (accessOf c i) b).map MemTxn.addr =
      List.range' (b.address (accessOf c i).loc.off) (accessOf c i).loc.width := by
  unfold transactions
  cases h : (accessOf c i).action with
  | load n => exact map_addr_readTxns _ _
  | store bs => exact accessOf_store_length h ▸ map_addr_writeTxns _ bs

theorem isWrite_of_mem_transactions {c : Config} {i : Instr} {b : Sideband} {x : MemTxn}
    (h : x ∈ transactions (accessOf c i) b) : x.isWrite = isSet c i := by
  unfold transactions at h
  unfold isSet
  cases hx : (accessOf c i).action with
  | load n => exact isWrite_of_mem_readTxns (by simpa [hx] using h)
  | store bs => exact isWrite_of_mem_writeTxns (by simpa [hx] using h)

theorem addr_of_mem_transactions {c : Config} {i : Instr} {b : Sideband} {x : MemTxn}
    (h : x ∈ transactions (accessOf c i) b) :
    b.address (accessOf c i).loc.off ≤ x.addr ∧ x.addr < b.address (accessOf c i).loc.off + (accessOf c i).loc.width := by
  have hmem := List.mem_map_of_mem (f := MemTxn.addr) h
  rwa [map_addr_transactions, List.mem_range'_1] at hmem

theorem length_transactions (c : Config) (i : Instr) (b : Sideband) :
    (transactions (accessOf c i) b).length = (accessOf c i).loc.width := by
  simpa using congrArg List.length (map_addr_transactions c i b)

/-! ### Memory (R25, R48) -/

theorem addressesExist_of_noFlight {s : State} (hf : s.flight = none)
    (hport : ∀ x, s.memPort = some x → x.addr < s.cfg.addressSpace) : s.AddressesExist :=
  ⟨hport, fun _ hf' => absurd (hf.symm.trans hf') nofun⟩

section
variable {s : State} {f : Flight} (hport : ∀ x, s.memPort = some x → x.addr < s.cfg.addressSpace)
  (htodo : ∀ x ∈ f.todo, x.addr < s.cfg.addressSpace)
include hport htodo

theorem addressesExist_withFlight : State.AddressesExist { s with flight := some f } := by
  refine ⟨hport, fun g hg => ?_⟩
  cases hg
  exact htodo

theorem offerNext_addressesExist : (offerNext f s).AddressesExist := by
  rcases offerNext_cases f s with ⟨k, x, hk, hoffer⟩ | ⟨-, -, hoffer⟩ | ⟨-, -, hoffer⟩
  · rw [hoffer]
    refine ⟨fun y hy => ?_, fun g hg y hy => ?_⟩
    · cases hy
      exact htodo _ (List.mem_of_getElem? hk)
    · cases hg
      exact htodo y (List.mem_of_mem_eraseIdx hy)
  · rw [hoffer]
    exact addressesExist_withFlight hport htodo
  · rw [hoffer]
    exact addressesExist_withFlight hport htodo

theorem goOn_addressesExist : (goOn f s).AddressesExist := by
  rcases goOn_cases f s with ⟨-, hgo⟩ | ⟨-, hgo⟩
  · rw [hgo]
    exact addressesExist_withFlight hport htodo
  · rw [hgo]
    exact offerNext_addressesExist hport htodo

end

/-- Every transaction of a command that nothing blocks is for an address that exists (R48, R176). -/
theorem transactions_exist {c : Config} {i : Instr} {b : Sideband} (h : blocked c i (accessOf c i) b = none) :
    ∀ x ∈ transactions (accessOf c i) b, x.addr < c.addressSpace := by
  intro x hx
  obtain ⟨-, hlt⟩ := addr_of_mem_transactions hx
  obtain ⟨-, htop⟩ := (blocked_eq_none_iff _ _ _ _).mp h
  omega

theorem memoryOk_write {s : State} {a : Nat} (h : s.MemoryOk) (ha : a < s.cfg.addressSpace) (b : Byte) :
    State.MemoryOk { s with mem := s.mem.write a b } :=
  ⟨Memory.wf_write h.1 a b, Memory.inSpace_write h.2 ha b⟩

/-- A command that nothing blocks writes inside the address space. -/
theorem memoryOk_complete {i : Instr} {s : State} (h : s.MemoryOk)
    (hblocked : blocked s.cfg i (accessOf s.cfg i) s.sideband = none) : (complete (accessOf s.cfg i) s).MemoryOk := by
  obtain ⟨hwf, hspace⟩ := h
  cases hx : (accessOf s.cfg i).action with
  | load n =>
    rw [State.MemoryOk, complete_mem, completedMem_load hx]
    exact ⟨hwf, hspace⟩
  | store bs =>
    obtain ⟨-, htop⟩ := (blocked_eq_none_iff _ _ _ _).mp hblocked
    rw [← accessOf_store_length hx] at htop
    rw [State.MemoryOk, complete_mem, completedMem_store hx]
    exact ⟨memWrite_wf hwf _ _, memWrite_inSpace hspace _ _ htop⟩

theorem takeInput_keeps_memory {x : Input} {s t : State} (hmem : s.MemoryOk) (haddr : s.AddressesExist)
    (h : takeInput x s = .next t) : t.MemoryOk ∧ t.AddressesExist := by
  obtain ⟨hport, htodo⟩ := haddr
  cases x with
  | command r =>
    obtain ⟨e, -, rfl⟩ | ⟨i, -, hblocked, rfl⟩ := issue_next h
    · exact ⟨hmem, hport, htodo⟩
    · exact ⟨memoryOk_complete (s := s.withSideband r.side) hmem hblocked, hport, htodo⟩
  | request r =>
    rw [takeInput] at h
    obtain ⟨e, -, haccept⟩ | ⟨i, -, hblocked, haccept⟩ | ⟨i, f, -, -, ⟨-, -, haccept⟩ | ⟨-, haccept⟩⟩ := acceptRequest_cases r s
    · cases haccept.symm.trans h
      exact ⟨by simpa [State.MemoryOk] using hmem, offerNext_addressesExist hport nofun⟩
    · cases haccept.symm.trans h
      exact ⟨by simpa [State.MemoryOk] using hmem, offerNext_addressesExist hport (transactions_exist hblocked)⟩
    · cases haccept.symm.trans h
      exact ⟨hmem, addressesExist_withFlight (s := s) (f := newFlight r (some i) []) hport nofun⟩
    · cases haccept.symm.trans h
  | memAccept =>
    cases h
    obtain ⟨-, haccept⟩ | ⟨f, a, hf, hm, haccept⟩ | ⟨f, a, b, hf, hm, haccept⟩ := acceptMem_cases s <;> rw [haccept]
    · exact ⟨hmem, hport, htodo⟩
    · exact ⟨by simpa [State.MemoryOk] using hmem, goOn_addressesExist nofun (htodo f hf)⟩
    · have ha : a < s.cfg.addressSpace := hport _ hm
      exact ⟨by simpa [State.MemoryOk] using memoryOk_write hmem ha b, goOn_addressesExist nofun (htodo f hf)⟩
  | memAnswer =>
    obtain ⟨a, rest, -, rfl⟩ | ⟨f, a, rest, -, hf, -, rfl⟩ := answerMem_next h
    · exact ⟨hmem, hport, htodo⟩
    · exact ⟨by simpa [State.MemoryOk] using hmem, goOn_addressesExist hport (htodo f hf)⟩
  | respAccept =>
    cases h
    obtain ⟨-, haccept⟩ | ⟨f, rw', -, -, haccept⟩ := acceptResponse_cases s <;> rw [haccept]
    · exact ⟨hmem, hport, htodo⟩
    · exact ⟨hmem, addressesExist_of_noFlight rfl hport⟩
  | resetFalls =>
    cases h
    exact ⟨hmem, addressesExist_of_noFlight rfl nofun⟩
  | resetRises =>
    cases h
    exact ⟨hmem, hport, htodo⟩
  | foreign a =>
    obtain ⟨rfl, ha, -⟩ := foreignAccess_next h
    cases a with
    | read a => exact ⟨hmem, hport, htodo⟩
    | write a b => exact ⟨memoryOk_write hmem ha b, hport, htodo⟩

/-- Settles O58: what is written was pending, of a command that nothing blocks, or another agent's to an address that exists. -/
theorem stepKeepsMemoryCanonical : Obligations.StepKeepsMemoryCanonical := by
  unfold Obligations.StepKeepsMemoryCanonical
  intro s t hmem haddr hstep
  exact step_keeps (P := fun s => s.MemoryOk ∧ s.AddressesExist) (fun _ _ h => h)
    (fun _ _ _ h _ _ htake => takeInput_keeps_memory h.1 h.2 htake) ⟨hmem, haddr⟩ hstep

/-! ### The ports (R30, R46, R57, R87, R110) -/

theorem portsOk_of_noFlight {s : State} (hf : s.flight = none) (hmem : s.memPort = none) (hresp : s.respPort = none) :
    s.PortsOk := by
  unfold State.PortsOk
  rw [hf]
  exact ⟨hmem, hresp⟩

theorem State.PortsOk.noFlight {s : State} (h : s.PortsOk) (hf : s.flight = none) : s.memPort = none ∧ s.respPort = none := by
  unfold State.PortsOk at h
  rwa [hf] at h

theorem portsOk_iff_of_some {s : State} {f : Flight} (hf : s.flight = some f) :
    s.PortsOk ↔ s.FlightOk f ∨ (s.faults ≠ [] ∧ s.OocOk f) := by
  unfold State.PortsOk
  rw [hf]

theorem State.PortsOk.flightOk {s : State} {f : Flight} (h : s.PortsOk) (hfaults : s.faults = []) (hf : s.flight = some f) :
    s.FlightOk f :=
  ((portsOk_iff_of_some hf).mp h).resolve_right fun hooc => hooc.1 hfaults

theorem State.FlightOk.portsOk {s : State} {f : Flight} (h : s.FlightOk f) (hf : s.flight = some f) : s.PortsOk :=
  (portsOk_iff_of_some hf).mpr (.inl h)

/-! The ports do not look at memory, at what was abandoned, or at the inputs. -/

section
variable {s : State} {f : Flight} {m : Memory} {ab : List Nat} {is : List Input}

theorem State.FlightOk.frame (h : s.FlightOk f) : State.FlightOk { s with mem := m, abandoned := ab, inputs := is } f :=
  ⟨h.outOfReset, h.decoded, h.sidebandHeld, h.owned, h.readsOwned, h.onceEach, h.wholeRange, h.offered, h.responds, h.waitsOnly⟩

theorem State.OocOk.frame (h : s.OocOk f) : State.OocOk { s with mem := m, abandoned := ab, inputs := is } f :=
  ⟨h.outOfReset, h.decoded, h.sidebandHeld, h.debug, h.untouched, h.responds, h.outOfContract⟩

theorem State.PortsOk.frame (h : s.PortsOk) : State.PortsOk { s with mem := m, abandoned := ab, inputs := is } := by
  obtain hf | ⟨f, hf⟩ := Option.eq_none_or_eq_some s.flight
  · obtain ⟨hmem, hresp⟩ := h.noFlight hf
    exact portsOk_of_noFlight hf hmem hresp
  · obtain hflight | ⟨hfaults, hooc⟩ := (portsOk_iff_of_some hf).mp h
    · exact hflight.frame.portsOk hf
    · exact (portsOk_iff_of_some (s := { s with mem := m, abandoned := ab, inputs := is }) hf).mpr (.inr ⟨hfaults, hooc.frame⟩)

end

/-- While a transaction is offered, no response is (R57). -/
theorem State.FlightOk.respPort_of_memPort {s : State} {f : Flight} {x : MemTxn} (h : s.FlightOk f) (hm : s.memPort = some x) :
    s.respPort = none := by
  cases hresp : s.respPort with
  | none => rfl
  | some rw' => exact absurd (hm.symm.trans (h.responds _ hresp).1) nofun

/-- While a read waits for its answer, no response is offered (R57). -/
theorem State.FlightOk.respPort_of_unanswered {s : State} {f : Flight} {a : Nat} {rest : List Nat} (h : s.FlightOk f)
    (hu : f.unanswered = a :: rest) : s.respPort = none := by
  cases hresp : s.respPort with
  | none => rfl
  | some rw' => exact absurd (hu.symm.trans (h.responds _ hresp).2.1) nofun

/-- The clauses of `FlightOk` about what the flight is made of, and not about what the ports offer: they hold also between a handshake
and the core's going on. -/
structure State.Carries (s : State) (f : Flight) : Prop where
  outOfReset : s.rstN = true
  decoded : f.cmd = (decode f.req.word).toOption
  sidebandHeld : f.req.side = s.sideband
  owned : ∀ t ∈ s.pending f, f.Owns s.cfg t.isWrite t.addr
  readsOwned : ∀ a ∈ f.unanswered ++ f.got.map Prod.fst, f.Owns s.cfg false a
  onceEach : (s.touched f).Nodup
  wholeRange : ∀ i, f.cmd = some i → isSet s.cfg i = false → (s.touched f).length = (accessOf s.cfg i).loc.width

theorem State.FlightOk.carries {s : State} {f : Flight} (h : s.FlightOk f) : s.Carries f :=
  ⟨h.outOfReset, h.decoded, h.sidebandHeld, h.owned, h.readsOwned, h.onceEach, h.wholeRange⟩

/-- When the core has gone on, its ports are right again. -/
theorem Resumes.flightOk {s t : State} {f g : Flight} (hres : Resumes s f t g) (h : s.Carries f) (hresp : s.respPort = none) :
    t.FlightOk g := by
  obtain ⟨hframe, hsame, hpending, hoffered, hresponds, hwaits⟩ := hres
  obtain ⟨todo, rfl⟩ : ∃ todo, g = { f with todo := todo } := ⟨_, hsame⟩
  obtain ⟨port, resp, k, rfl⟩ : ∃ port resp k,
      t = { s with flight := some { f with todo := todo }, memPort := port, respPort := resp, fresh := k } := ⟨_, _, _, hframe⟩
  have htouched := ((hpending.map MemTxn.addr).append_right f.unanswered).append_right (f.got.map Prod.fst)
  exact
    { outOfReset := h.outOfReset
      decoded := h.decoded
      sidebandHeld := h.sidebandHeld
      owned := fun x hx => h.owned x (hpending.mem_iff.mp hx)
      readsOwned := h.readsOwned
      onceEach := htouched.nodup_iff.mpr h.onceEach
      wholeRange := fun i hi hget => htouched.length_eq.trans (h.wholeRange i hi hget)
      offered := hoffered
      responds := hresponds hresp
      waitsOnly := hwaits }

theorem goOn_portsOk {s : State} {f : Flight} (h : s.Carries f) (hresp : s.respPort = none) : (goOn f s).PortsOk := by
  obtain ⟨g, hres⟩ := goOn_resumes f s
  exact (hres.flightOk h hresp).portsOk (congrArg State.flight hres.frame)

/-- An accepted read is no longer pending and waits for its answer (R88). -/
theorem State.Carries.acceptRead {s : State} {f : Flight} {a : Nat} (h : s.Carries f) (hm : s.memPort = some (.read a)) :
    State.Carries { s with memPort := none } { f with unanswered := f.unanswered ++ [a] } := by
  have hpending : s.pending f = .read a :: f.todo := by simp [State.pending, hm]
  have htouched : (State.touched { s with memPort := none } { f with unanswered := f.unanswered ++ [a] }).Perm (s.touched f) := by
    simpa [State.touched, State.pending, hm, MemTxn.addr] using
      List.perm_middle (l₁ := f.todo.map MemTxn.addr ++ f.unanswered) (a := a) (l₂ := f.got.map Prod.fst)
  exact
    { outOfReset := h.outOfReset
      decoded := h.decoded
      sidebandHeld := h.sidebandHeld
      owned := fun x hx => h.owned x (hpending ▸ List.mem_cons_of_mem _ hx)
      readsOwned := fun b hb => by
        rw [List.append_assoc, List.mem_append, List.singleton_append, List.mem_cons] at hb
        obtain hb | rfl | hb := hb
        · exact h.readsOwned b (List.mem_append_left _ hb)
        · exact h.owned (.read b) (hpending ▸ List.mem_cons_self)
        · exact h.readsOwned b (List.mem_append_right _ hb)
      onceEach := htouched.nodup_iff.mpr h.onceEach
      wholeRange := fun i hi hget => htouched.length_eq.trans (h.wholeRange i hi hget) }

/-- An accepted write is done (R88). -/
theorem State.Carries.acceptWrite {s : State} {f : Flight} {a : Nat} {b : Byte} (h : s.Carries f)
    (hm : s.memPort = some (.write a b)) (m : Memory) : State.Carries { s with memPort := none, mem := m } f := by
  have hpending : s.pending f = .write a b :: f.todo := by simp [State.pending, hm]
  have htouched : s.touched f = a :: State.touched { s with memPort := none, mem := m } f := by
    simp [State.touched, State.pending, hm, MemTxn.addr]
  exact
    { outOfReset := h.outOfReset
      decoded := h.decoded
      sidebandHeld := h.sidebandHeld
      owned := fun x hx => h.owned x (hpending ▸ List.mem_cons_of_mem _ hx)
      readsOwned := h.readsOwned
      onceEach := (List.nodup_cons.mp (htouched ▸ h.onceEach)).2
      wholeRange := fun i hi hget => by
        obtain ⟨j, hj, hset, -⟩ := h.owned (.write a b) (hpending ▸ List.mem_cons_self)
        cases hi.symm.trans hj
        exact absurd (hset.trans hget) nofun }

/-- An answered read has its byte (R88). -/
theorem State.Carries.answer {s : State} {f : Flight} {a : Nat} {rest : List Nat} (h : s.Carries f)
    (hu : f.unanswered = a :: rest) (b : Byte) : s.Carries { f with unanswered := rest, got := f.got ++ [(a, b)] } := by
  have hreads : (rest ++ (f.got ++ [(a, b)]).map Prod.fst).Perm (f.unanswered ++ f.got.map Prod.fst) := by
    simpa [hu] using List.perm_append_singleton a (rest ++ f.got.map Prod.fst)
  have htouched : (s.touched { f with unanswered := rest, got := f.got ++ [(a, b)] }).Perm (s.touched f) := by
    rw [State.touched, State.touched, List.append_assoc, List.append_assoc]
    exact hreads.append_left _
  exact
    { outOfReset := h.outOfReset
      decoded := h.decoded
      sidebandHeld := h.sidebandHeld
      owned := h.owned
      readsOwned := fun x hx => h.readsOwned x (hreads.mem_iff.mp hx)
      onceEach := htouched.nodup_iff.mpr h.onceEach
      wholeRange := fun i hi hget => htouched.length_eq.trans (h.wholeRange i hi hget) }

theorem carries_illegal {r : Request} {s : State} {e : Illegal} (hrst : s.rstN = true) (hmem : s.memPort = none)
    (hdecode : decode r.word = .error e) : (s.withSideband r.side).Carries (newFlight r none []) :=
  { outOfReset := hrst
    decoded := by rw [newFlight, hdecode]; rfl
    sidebandHeld := rfl
    owned := by simp [State.pending, hmem, newFlight]
    readsOwned := nofun
    onceEach := by simp [State.touched, State.pending, hmem, newFlight]
    wholeRange := nofun }

/-- A command that nothing blocks starts with all transactions of its range (R46, R176). -/
theorem carries_command {r : Request} {s : State} {i : Instr} (hrst : s.rstN = true) (hmem : s.memPort = none)
    (hdecode : decode r.word = .ok i) (hblocked : blocked s.cfg i (accessOf s.cfg i) r.side = none) :
    (s.withSideband r.side).Carries (newFlight r (some i) (transactions (accessOf s.cfg i) r.side)) := by
  have htouched : (s.withSideband r.side).touched (newFlight r (some i) (transactions (accessOf s.cfg i) r.side)) =
      List.range' (r.side.address (accessOf s.cfg i).loc.off) (accessOf s.cfg i).loc.width := by
    simp [State.touched, State.pending, hmem, newFlight, map_addr_transactions]
  exact
    { outOfReset := hrst
      decoded := by rw [newFlight, hdecode]; rfl
      sidebandHeld := rfl
      owned := fun x hx => by
        have hx : x ∈ transactions (accessOf s.cfg i) r.side := by simpa [State.pending, hmem, newFlight] using hx
        obtain ⟨hlo, hhi⟩ := addr_of_mem_transactions hx
        exact ⟨i, rfl, isWrite_of_mem_transactions hx, hlo, hhi, ((blocked_eq_none_iff _ _ _ _).mp hblocked).2⟩
      readsOwned := nofun
      onceEach := htouched ▸ List.nodup_range'
      wholeRange := fun j hj _ => by
        cases hj
        rw [htouched, List.length_range']
        rfl }

/-- The ports of an out-of-contract command with `DEBUG_ASSERT = 1` (R172; log 3). -/
theorem oocOk_request {r : Request} {s : State} {i : Instr} {f : Fault} (hrst : s.rstN = true) (hmem : s.memPort = none)
    (hdecode : decode r.word = .ok i) (hdebug : s.cfg.debugAssert = true)
    (hblocked : blocked s.cfg i (accessOf s.cfg i) r.side = some f) (hf : ∃ j o w l, f = .outOfContract j o w l) :
    State.OocOk { s.withSideband r.side with
      flight := some (newFlight r (some i) []), respPort := some (responseWord .ooc 0), faults := s.faults ++ [f] }
      (newFlight r (some i) []) := by
  refine ⟨hrst, by rw [newFlight, hdecode]; rfl, rfl, hdebug, by simp [State.touched, State.pending, hmem, newFlight], ⟨hmem, rfl⟩,
    i, rfl, ?_⟩
  obtain ⟨hshort, heq⟩ | ⟨-, -, heq⟩ | ⟨-, -, heq⟩ := blocked_cases s.cfg i (accessOf s.cfg i) r.side
  · cases heq.symm.trans hblocked
    rw [accessOf_minLen] at hshort
    exact ⟨hshort, by simp [newFlight]⟩
  · obtain ⟨_, _, _, _, rfl⟩ := hf
    cases heq.symm.trans hblocked
  · cases heq.symm.trans hblocked

theorem takeInput_keeps_ports {x : Input} {s t : State} (hports : s.PortsOk) (hfaults : s.faults = [])
    (hready : x.waitsForReady = true → s.reqReady = true) (h : takeInput x s = .next t) : t.PortsOk := by
  cases x with
  | command r =>
    obtain ⟨-, hf⟩ := (reqReady_iff s).mp (hready rfl)
    obtain ⟨hmem, hresp⟩ := hports.noFlight hf
    obtain ⟨e, -, rfl⟩ | ⟨i, -, -, rfl⟩ := issue_next h
    · exact portsOk_of_noFlight hf hmem hresp
    · exact portsOk_of_noFlight hf hmem hresp
  | request r =>
    obtain ⟨hrst, hf⟩ := (reqReady_iff s).mp (hready rfl)
    obtain ⟨hmem, hresp⟩ := hports.noFlight hf
    rw [takeInput] at h
    obtain ⟨e, hdecode, haccept⟩ | ⟨i, hdecode, hblocked, haccept⟩ |
      ⟨i, f, hdecode, hblocked, ⟨hdebug, hooc, haccept⟩ | ⟨-, haccept⟩⟩ := acceptRequest_cases r s
    · cases haccept.symm.trans h
      obtain ⟨g, hres⟩ := offerNext_resumes (s := s.withSideband r.side) (newFlight r none []) hmem
      exact (hres.flightOk (carries_illegal hrst hmem hdecode) hresp).portsOk (congrArg State.flight hres.frame)
    · cases haccept.symm.trans h
      obtain ⟨g, hres⟩ := offerNext_resumes (s := s.withSideband r.side)
        (newFlight r (some i) (transactions (accessOf s.cfg i) r.side)) hmem
      exact (hres.flightOk (carries_command hrst hmem hdecode hblocked) hresp).portsOk (congrArg State.flight hres.frame)
    · cases haccept.symm.trans h
      exact .inr ⟨by simp, oocOk_request hrst hmem hdecode hdebug hblocked hooc⟩
    · cases haccept.symm.trans h
  | memAccept =>
    cases h
    obtain ⟨-, haccept⟩ | ⟨f, a, hf, hm, haccept⟩ | ⟨f, a, b, hf, hm, haccept⟩ := acceptMem_cases s
    · rwa [haccept]
    · have hflight := hports.flightOk hfaults hf
      rw [haccept]
      exact goOn_portsOk (hflight.carries.acceptRead hm) (hflight.respPort_of_memPort hm)
    · have hflight := hports.flightOk hfaults hf
      rw [haccept]
      exact goOn_portsOk (hflight.carries.acceptWrite hm _) (hflight.respPort_of_memPort hm)
  | memAnswer =>
    obtain ⟨a, rest, -, rfl⟩ | ⟨f, a, rest, -, hf, hu, rfl⟩ := answerMem_next h
    · exact hports.frame
    · have hflight := hports.flightOk hfaults hf
      exact goOn_portsOk (hflight.carries.answer hu _) (hflight.respPort_of_unanswered hu)
  | respAccept =>
    cases h
    obtain ⟨-, haccept⟩ | ⟨f, rw', hf, hresp, haccept⟩ := acceptResponse_cases s
    · rwa [haccept]
    · have hflight := hports.flightOk hfaults hf
      rw [haccept]
      exact portsOk_of_noFlight rfl (hflight.responds _ hresp).1 rfl
  | resetFalls =>
    cases h
    exact portsOk_of_noFlight rfl rfl rfl
  | resetRises =>
    cases h
    obtain hf | ⟨f, hf⟩ := Option.eq_none_or_eq_some s.flight
    · obtain ⟨hmem, hresp⟩ := hports.noFlight hf
      exact portsOk_of_noFlight hf hmem hresp
    · have hrst := (hports.flightOk hfaults hf).outOfReset
      rwa [resetRise, ← hrst]
  | foreign a =>
    obtain ⟨rfl, ha, -⟩ := foreignAccess_next h
    cases a with
    | read a => exact hports
    | write a b => exact hports.frame

/-! ### The ledger (R21, R32, R174) -/

theorem goodResponse_ok (v : Value) : goodResponse (responseWord .ok v) := .inl (statusField_responseWord .ok v)

theorem goodResponse_illegal : goodResponse (responseWord .illegal 0) :=
  .inr ⟨statusField_responseWord .illegal 0, valField_responseWord .illegal 0⟩

/-- A flight's own response is one that a run may hold. -/
theorem goodResponse_responseOf (c : Config) (f : Flight) : goodResponse (responseOf c f) := by
  unfold responseOf
  split
  · unfold flightResponse
    split
    · exact goodResponse_ok _
    · exact goodResponse_ok 0
  · exact goodResponse_illegal

/-- One more response and one more index. -/
theorem ledgerOk_append {s : State} {rw : ResponseWord} (h : s.LedgerOk) (hrw : goodResponse rw) :
    State.LedgerOk { s with responses := s.responses ++ [rw], seq := s.seq + 1 } := by
  obtain ⟨hlength, hgood⟩ := h
  refine ⟨by simp [hlength], fun w hw => ?_⟩
  rcases List.mem_append.mp hw with hw | hw
  · exact hgood w hw
  · exact List.mem_singleton.mp hw ▸ hrw

theorem takeInput_keeps_ledger {x : Input} {s t : State} (hledger : s.LedgerOk) (hports : s.PortsOk) (hfaults : s.faults = [])
    (h : takeInput x s = .next t) : t.LedgerOk := by
  cases x with
  | command r =>
    obtain ⟨e, -, rfl⟩ | ⟨i, -, -, rfl⟩ := issue_next h
    · exact ledgerOk_append hledger goodResponse_illegal
    · exact ledgerOk_append hledger (goodResponse_ok _)
  | request r =>
    rw [takeInput] at h
    obtain ⟨e, -, haccept⟩ | ⟨i, -, -, haccept⟩ | ⟨i, f, -, -, ⟨-, -, haccept⟩ | ⟨-, haccept⟩⟩ := acceptRequest_cases r s
    · cases haccept.symm.trans h
      simpa [State.LedgerOk] using hledger
    · cases haccept.symm.trans h
      simpa [State.LedgerOk] using hledger
    · cases haccept.symm.trans h
      exact hledger
    · cases haccept.symm.trans h
  | memAccept =>
    cases h
    obtain ⟨-, haccept⟩ | ⟨f, a, -, -, haccept⟩ | ⟨f, a, b, -, -, haccept⟩ := acceptMem_cases s <;> rw [haccept]
    · exact hledger
    · simpa [State.LedgerOk] using hledger
    · simpa [State.LedgerOk] using hledger
  | memAnswer =>
    obtain ⟨a, rest, -, rfl⟩ | ⟨f, a, rest, -, -, -, rfl⟩ := answerMem_next h
    · exact hledger
    · simpa [State.LedgerOk] using hledger
  | respAccept =>
    cases h
    obtain ⟨-, haccept⟩ | ⟨f, rw', hf, hresp, haccept⟩ := acceptResponse_cases s
    · rwa [haccept]
    · obtain ⟨-, -, rfl⟩ := (hports.flightOk hfaults hf).responds _ hresp
      rw [haccept]
      exact ledgerOk_append hledger (goodResponse_responseOf _ _)
  | resetFalls =>
    cases h
    exact ⟨rfl, nofun⟩
  | resetRises =>
    cases h
    exact hledger
  | foreign a =>
    obtain ⟨rfl, -, -⟩ := foreignAccess_next h
    cases a <;> exact hledger

/-! ### The invariant -/

/-- The bytes that a flight has pending are its own, so they exist. -/
theorem State.PortsOk.addressesExist {s : State} (h : s.PortsOk) (hfaults : s.faults = []) : s.AddressesExist := by
  cases hf : s.flight with
  | none =>
    refine addressesExist_of_noFlight hf fun x hx => ?_
    exact absurd ((h.noFlight hf).1.symm.trans hx) nofun
  | some f =>
    have hflight := h.flightOk hfaults hf
    refine ⟨fun x hx => ?_, fun g hg x hx => ?_⟩
    · obtain ⟨i, -, -, -, hlt, htop⟩ := hflight.owned x (by simp [State.pending, hx])
      omega
    · cases hf.symm.trans hg
      obtain ⟨i, -, -, -, hlt, htop⟩ := hflight.owned x (by simp [State.pending, hx])
      omega

/-- Settles O59: memory, ledger and ports are kept one after the other; memory, because a flight's bytes exist; the ledger, because the
response on the port is the flight's own. -/
theorem stepKeepsInvariant : Obligations.StepKeepsInvariant := by
  unfold Obligations.StepKeepsInvariant
  refine fun s t => step_keeps (fun s is ⟨hmem, hledger, hports⟩ => ⟨hmem, hledger, hports.frame⟩) ?_
  rintro x s t ⟨hmem, hledger, hports⟩ hfaults hready htake
  exact ⟨(takeInput_keeps_memory hmem (hports.addressesExist hfaults) htake).1,
    takeInput_keeps_ledger hledger hports hfaults htake, takeInput_keeps_ports hports hfaults hready htake⟩

/-- The ports of a launch are right, its ledger is empty, and its memory is the caller's (R28, R33). -/
theorem launch_inv {c : Config} {m : Memory} (cmds : List Request) (hm : m.wf = true ∧ m.inSpace c = true) :
    (launch c m cmds).Inv :=
  ⟨hm, ⟨rfl, nofun⟩, portsOk_of_noFlight rfl rfl rfl⟩

/-- Settles O2: the reset state is a launch on memory that lists nothing. -/
theorem resetSatisfiesInvariant : Obligations.ResetSatisfiesInvariant :=
  launch_inv (c := Config.default) (m := []) [] ⟨rfl, rfl⟩

end Sys2Proof.Machine
end

section
/-!
A command at the ports and as one transition (R46, R47, R56, R201). `Performs` relates a state with the command in flight to the state
it started from: what is pending belongs to the command, each byte of memory is the completed command's or else waits for its write,
and each byte read is what memory held. Every handshake keeps it, in any order; when the response is accepted, what it says is
`Performed`.
-/

namespace Sys2Proof.Machine

/-! ### Runs (R32) -/

section
variable {M : Host.Core} {s : M.State}

theorem run_succ_of_step {u : M.State} (h : M.step s = .next u) (n : Nat) : M.run (n + 1) s = M.run n u := by
  rw [Host.Core.run, h]

theorem run_succ_next {t : M.State} {n : Nat} (h : M.run (n + 1) s = .next t) :
    ∃ u, M.step s = .next u ∧ M.run n u = .next t := by
  rw [Host.Core.run] at h
  cases hs : M.step s with
  | next u => exact ⟨u, rfl, by simpa [hs] using h⟩
  | fault f => simp [hs] at h
  | refused q => simp [hs] at h

/-- What every step keeps, a run keeps. -/
theorem run_keeps {P : M.State → Prop} (hstep : ∀ s t, P s → M.step s = .next t → P t) {n : Nat} {t : M.State} (h : P s)
    (hrun : M.run n s = .next t) : P t := by
  induction n generalizing s with
  | zero =>
    cases hrun
    exact h
  | succ n ih =>
    obtain ⟨u, hu, hrun⟩ := run_succ_next hrun
    exact ih (hstep s u h hu) hrun

end

/-! ### What a command in flight has done so far -/

/-- The command `i` is in flight as `f` in the state `t`, and was accepted in the state `s`, whose sidebands are its own: the
transactions still to make are the command's; a byte of memory is the completed command's, or is as it was and waits to be written; a
byte read is what memory held. -/
structure Performs (s : State) (i : Instr) (t : State) (f : Flight) : Prop where
  cmd : f.cmd = some i
  side : f.req.side = s.sideband
  frame : t = { s with
    mem := t.mem, rstN := t.rstN, flight := t.flight, abandoned := t.abandoned, memPort := t.memPort, respPort := t.respPort,
    inputs := t.inputs, fresh := t.fresh }
  own : ∀ x ∈ t.pending f, x ∈ transactions (accessOf s.cfg i) s.sideband
  memory : ∀ a, t.mem.read a = (completedMem (accessOf s.cfg i) s).read a ∨
    t.mem.read a = s.mem.read a ∧ ∃ b, .write a b ∈ t.pending f
  got : ∀ c ∈ f.got, c.2 = s.mem.read c.1

/-- The command has run: the state is that of the command as one transition, as far as a caller can tell (R46). -/
structure Performed (u t : State) : Prop where
  idle : t.Idle
  responses : t.responses = u.responses
  seq : t.seq = u.seq
  sideband : t.sideband = u.sideband
  cfg : t.cfg = u.cfg
  memory : ∀ a, t.mem.read a = u.mem.read a

theorem mem_writeTxns_iff {a a' : Nat} {b : Byte} {bs : List Byte} :
    .write a' b ∈ writeTxns a bs ↔ ∃ k, bs[k]? = some b ∧ a' = a + k := by
  induction bs generalizing a with
  | nil => simp [writeTxns]
  | cons b' bs ih =>
    simp only [writeTxns, List.mem_cons, MemTxn.write.injEq, ih]
    constructor
    · rintro (⟨rfl, rfl⟩ | ⟨k, hk, rfl⟩)
      · exact ⟨0, rfl, rfl⟩
      · exact ⟨k + 1, by simpa using hk, by omega⟩
    · rintro ⟨_ | k, hk, rfl⟩
      · exact .inl ⟨rfl, (by simpa using hk.symm)⟩
      · exact .inr ⟨k, by simpa using hk, by omega⟩

/-- The memory of a completed command holds what its writes carry. -/
theorem read_completedMem_of_write {s : State} {i : Instr} {a : Nat} {b : Byte}
    (h : .write a b ∈ transactions (accessOf s.cfg i) s.sideband) : (completedMem (accessOf s.cfg i) s).read a = b := by
  obtain ⟨bs, hbs⟩ := isSet_eq_true_iff.mp (isWrite_of_mem_transactions h).symm
  rw [completedMem_store hbs]
  rw [transactions, hbs] at h
  obtain ⟨k, hk, rfl⟩ := mem_writeTxns_iff.mp h
  exact read_memWrite_getElem? hk

/-- Every byte that a completed command has changed, it has written (R46). -/
theorem exists_write_of_ne {s : State} {i : Instr} {a : Nat} (h : (completedMem (accessOf s.cfg i) s).read a ≠ s.mem.read a) :
    ∃ b, .write a b ∈ transactions (accessOf s.cfg i) s.sideband := by
  cases hx : (accessOf s.cfg i).action with
  | load n => exact absurd (by rw [completedMem_load hx]) h
  | store bs =>
    rw [completedMem_store hx, read_memWrite] at h
    split at h
    · next hin =>
      rw [transactions, hx]
      exact ⟨_, mem_writeTxns_iff.mpr ⟨_, List.getElem?_eq_getElem hin.2, by omega⟩⟩
    · exact absurd rfl h

section
variable {s t : State} {i : Instr} {f : Flight}

/-- A command just accepted has done nothing yet. -/
theorem performs_newFlight {r : Request} (hside : s.sideband = r.side) (hmem : s.memPort = none) :
    Performs s i s (newFlight r (some i) (transactions (accessOf s.cfg i) r.side)) := by
  have hpending : s.pending (newFlight r (some i) (transactions (accessOf s.cfg i) r.side)) =
      transactions (accessOf s.cfg i) s.sideband := by simp [State.pending, hmem, newFlight, hside]
  refine ⟨rfl, hside.symm, rfl, fun x hx => hpending ▸ hx, fun a => ?_, nofun⟩
  rw [hpending]
  exact or_iff_not_imp_left.mpr fun hne => ⟨rfl, exists_write_of_ne fun h => hne h.symm⟩

theorem Performs.resumes (h : Performs s i t f) {u : State} {g : Flight} (hres : Resumes t f u g) : Performs s i u g := by
  obtain ⟨hcmd, hside, hframe, hown, hmemory, hgot⟩ := h
  obtain ⟨hframe', hsame, hpending, -, -, -⟩ := hres
  obtain ⟨todo, rfl⟩ : ∃ todo, g = { f with todo := todo } := ⟨_, hsame⟩
  refine ⟨hcmd, hside, ?_, fun x hx => hown x (hpending.mem_iff.mp hx), fun a => ?_, hgot⟩
  · rw [hframe', hframe]
  · rw [congrArg State.mem hframe']
    exact (hmemory a).imp_right fun ⟨hold, b, hb⟩ => ⟨hold, b, hpending.mem_iff.mpr hb⟩

/-- A get leaves memory as it is. -/
theorem Performs.read_of_get (h : Performs s i t f) (hget : isSet s.cfg i = false) (a : Nat) : t.mem.read a = s.mem.read a := by
  obtain ⟨n, hn⟩ := isSet_eq_false_iff.mp hget
  rcases h.memory a with hnew | ⟨hold, -⟩
  · rw [hnew, completedMem_load hn]
  · exact hold

theorem Performs.acceptRead {a : Nat} (h : Performs s i t f) (hm : t.memPort = some (.read a)) :
    Performs s i { t with memPort := none } { f with unanswered := f.unanswered ++ [a] } := by
  have hpending : t.pending f = .read a :: f.todo := by simp [State.pending, hm]
  obtain ⟨hcmd, hside, hframe, hown, hmemory, hgot⟩ := h
  refine ⟨hcmd, hside, ?_, fun x hx => hown x (hpending ▸ List.mem_cons_of_mem _ hx), fun a' => ?_, hgot⟩
  · rw [hframe]
  · refine (hmemory a').imp_right fun ⟨hold, b, hb⟩ => ⟨hold, b, ?_⟩
    simpa [State.pending, hm] using hb

theorem Performs.acceptWrite {a : Nat} {b : Byte} (h : Performs s i t f) (hm : t.memPort = some (.write a b)) :
    Performs s i { t with memPort := none, mem := t.mem.write a b } f := by
  have hpending : t.pending f = .write a b :: f.todo := by simp [State.pending, hm]
  obtain ⟨hcmd, hside, hframe, hown, hmemory, hgot⟩ := h
  refine ⟨hcmd, hside, ?_, fun x hx => hown x (hpending ▸ List.mem_cons_of_mem _ hx), fun a' => ?_, hgot⟩
  · rw [hframe]
  · by_cases ha : a' = a
    · subst ha
      have hb := read_completedMem_of_write (hown (.write a' b) (hpending ▸ List.mem_cons_self))
      exact .inl (by rw [Memory.read_write_same, hb])
    · rw [Memory.read_write_other _ _ ha]
      refine (hmemory a').imp_right fun ⟨hold, b', hb'⟩ => ⟨hold, b', ?_⟩
      simpa [State.pending, hm, ha] using hb'

theorem Performs.answer {a : Nat} {rest : List Nat} (h : Performs s i t f) (hget : isSet s.cfg i = false) :
    Performs s i t { f with unanswered := rest, got := f.got ++ [(a, t.mem.read a)] } := by
  have ha := h.read_of_get hget a
  obtain ⟨hcmd, hside, hframe, hown, hmemory, hgot⟩ := h
  refine ⟨hcmd, hside, hframe, hown, hmemory, fun c hc => ?_⟩
  rcases List.mem_append.mp hc with hc | hc
  · exact hgot c hc
  · rw [List.mem_singleton.mp hc]
    exact ha

/-- With its response offered the command has nothing pending, so memory is as it leaves it. -/
theorem Performs.memory_of_response {w : ResponseWord} (h : Performs s i t f) (hflight : t.FlightOk f)
    (hresp : t.respPort = some w) (a : Nat) : t.mem.read a = (completedMem (accessOf s.cfg i) s).read a := by
  obtain ⟨hmem, -, -⟩ := hflight.responds w hresp
  have hpending : t.pending f = [] := by simp [State.pending, hmem, hflight.offered hmem]
  rcases h.memory a with hnew | ⟨-, b, hb⟩
  · exact hnew
  · rw [hpending] at hb
    cases hb

/-- With its response offered a get has read every byte of its range. -/
theorem mem_got_of_response {w : ResponseWord} {a : Nat} (hflight : t.FlightOk f) (hcmd : f.cmd = some i)
    (hget : isSet t.cfg i = false) (hresp : t.respPort = some w)
    (ha : a ∈ List.range' (f.req.side.address (accessOf t.cfg i).loc.off) (accessOf t.cfg i).loc.width) :
    a ∈ f.got.map Prod.fst := by
  obtain ⟨hmem, hunanswered, -⟩ := hflight.responds w hresp
  have htouched : t.touched f = f.got.map Prod.fst := by
    simp [State.touched, State.pending, hmem, hflight.offered hmem, hunanswered]
  have hsubset : f.got.map Prod.fst ⊆ List.range' (f.req.side.address (accessOf t.cfg i).loc.off) (accessOf t.cfg i).loc.width := by
    intro b hb
    obtain ⟨j, hj, -, hlo, hhi, -⟩ := hflight.readsOwned b (List.mem_append_right _ hb)
    cases hcmd.symm.trans hj
    exact List.mem_range'_1.mpr ⟨hlo, hhi⟩
  have hlength := hflight.wholeRange i hcmd hget
  rw [htouched] at hlength
  have hperm := (List.Nodup.subperm (htouched ▸ hflight.onceEach) hsubset).perm_of_length_le (by rw [List.length_range', hlength])
  exact hperm.mem_iff.mpr ha

/-- Cells that all hold what memory holds read as memory does. -/
theorem read_cells {m cells : Memory} {a : Nat} (h : ∀ c ∈ cells, c.2 = m.read c.1) (ha : a ∈ cells.map Prod.fst) :
    cells.read a = m.read a := by
  induction cells with
  | nil => cases ha
  | cons c cells ih =>
    rw [Memory.read]
    split
    · next hc => rw [hc, h c List.mem_cons_self]
    · next hc =>
      refine ih (fun d hd => h d (List.mem_cons_of_mem _ hd)) ?_
      exact (List.mem_cons.mp ha).resolve_left hc

theorem responseOf_of_cmd {c : Config} (h : f.cmd = some i) :
    responseOf c f = flightResponse (accessOf c i) f.req.side f.got := by
  simp [responseOf, h]

theorem flightResponse_load {x : Access} {n : Nat} (h : x.action = .load n) (b : Sideband) (got : List Host.Cell) :
    flightResponse x b got = responseWord .ok (loadedValue n (memRead got (b.address x.loc.off) x.loc.width)) := by
  simp [flightResponse, h]

theorem flightResponse_store {x : Access} {bs : List Byte} (h : x.action = .store bs) (b : Sideband) (got : List Host.Cell) :
    flightResponse x b got = responseWord .ok 0 := by
  simp [flightResponse, h]

theorem Performs.cfg_eq (h : Performs s i t f) : t.cfg = s.cfg := by rw [h.frame]
theorem Performs.sideband_eq (h : Performs s i t f) : t.sideband = s.sideband := by rw [h.frame]
theorem Performs.responses_eq (h : Performs s i t f) : t.responses = s.responses := by rw [h.frame]
theorem Performs.seq_eq (h : Performs s i t f) : t.seq = s.seq := by rw [h.frame]
theorem Performs.faults_eq (h : Performs s i t f) : t.faults = s.faults := by rw [h.frame]

/-- The response a flight offers is that of the command as one transition (R85). -/
theorem Performs.response {w : ResponseWord} (h : Performs s i t f) (hflight : t.FlightOk f) (hresp : t.respPort = some w) :
    w = responseWord .ok (completedValue (accessOf s.cfg i) s) := by
  obtain ⟨-, -, rfl⟩ := hflight.responds w hresp
  rw [h.cfg_eq, responseOf_of_cmd h.cmd, h.side]
  cases hx : (accessOf s.cfg i).action with
  | store bs => rw [flightResponse_store hx, completedValue_store hx]
  | load n =>
    have hget : isSet t.cfg i = false := h.cfg_eq ▸ isSet_eq_false_iff.mpr ⟨n, hx⟩
    rw [flightResponse_load hx, completedValue_load hx]
    congr 2
    refine memRead_congr fun a hlo hhi => read_cells h.got (mem_got_of_response hflight h.cmd hget hresp ?_)
    rw [h.cfg_eq, h.side]
    exact List.mem_range'_1.mpr ⟨hlo, hhi⟩

/-- When its response is accepted the command has run (R21, R87). -/
theorem Performs.finish {w : ResponseWord} (h : Performs s i t f) (hflight : t.FlightOk f) (hfaults : s.faults = [])
    (hresp : t.respPort = some w) :
    Performed (complete (accessOf s.cfg i) s)
      { t with flight := none, respPort := none, responses := t.responses ++ [w], seq := t.seq + 1 } :=
  { idle := ⟨hflight.outOfReset, rfl, (hflight.responds w hresp).1, rfl, h.faults_eq.trans hfaults⟩
    responses := by rw [complete_responses, ← h.response hflight hresp, h.responses_eq]
    seq := congrArg (· + 1) h.seq_eq
    sideband := h.sideband_eq
    cfg := h.cfg_eq
    memory := h.memory_of_response hflight hresp }

end

/-! ### The handshakes of a run (R87, R88) -/

/-- The inputs that are the memory's or the caller's side of a handshake with a command in flight. -/
def Input.IsHandshake (x : Input) : Prop := x = .memAccept ∨ x = .memAnswer ∨ x = .respAccept

/-- At the ports the command is still performed, or it has run. -/
def Follows (s : State) (i : Instr) (t : State) : Prop :=
  (∃ f, t.flight = some f ∧ Performs s i t f) ∨ Performed (complete (accessOf s.cfg i) s) t

theorem Performs.frame_inputs {s t : State} {i : Instr} {f : Flight} (h : Performs s i t f) {ab : List Nat} {is : List Input} :
    Performs s i { t with abandoned := ab, inputs := is } f :=
  ⟨h.cmd, h.side, by rw [h.frame], h.own, h.memory, h.got⟩

theorem Performed.frame_inputs {u t : State} (h : Performed u t) {ab : List Nat} {is : List Input} :
    Performed u { t with abandoned := ab, inputs := is } :=
  ⟨h.idle, h.responses, h.seq, h.sideband, h.cfg, h.memory⟩

theorem Follows.frame_inputs {s t : State} {i : Instr} (h : Follows s i t) {ab : List Nat} {is : List Input} :
    Follows s i { t with abandoned := ab, inputs := is } :=
  h.imp (fun ⟨f, hf, h⟩ => ⟨f, hf, h.frame_inputs⟩) fun h => h.frame_inputs

theorem Performs.goOn {s t : State} {i : Instr} {f : Flight} (h : Performs s i t f) :
    ∃ g, (goOn f t).flight = some g ∧ Performs s i (goOn f t) g := by
  obtain ⟨g, hres⟩ := goOn_resumes f t
  exact ⟨g, congrArg State.flight hres.frame, h.resumes hres⟩

/-- While the memory accepts transactions the command stays in flight. -/
theorem Performs.acceptMem {s t : State} {i : Instr} {f : Flight} (h : Performs s i t f) (hf : t.flight = some f) :
    ∃ g, (acceptMem t).flight = some g ∧ Performs s i (acceptMem t) g := by
  obtain ⟨-, haccept⟩ | ⟨g, a, hg, hm, haccept⟩ | ⟨g, a, b, hg, hm, haccept⟩ := acceptMem_cases t <;> rw [haccept]
  · exact ⟨f, hf, h⟩
  · cases hf.symm.trans hg
    exact (h.acceptRead hm).goOn
  · cases hf.symm.trans hg
    exact (h.acceptWrite hm).goOn

/-- A get is what waits for an answer (R88). -/
theorem State.FlightOk.isSet_of_unanswered {t : State} {f : Flight} {i : Instr} {a : Nat} {rest : List Nat} (h : t.FlightOk f)
    (hcmd : f.cmd = some i) (hu : f.unanswered = a :: rest) : isSet t.cfg i = false := by
  obtain ⟨j, hj, hget, -⟩ := h.readsOwned a (by simp [hu])
  cases hcmd.symm.trans hj
  exact hget.symm

theorem takeInput_keeps_follows {s t u : State} {i : Instr} {x : Input} (hx : x.IsHandshake) (hs : s.faults = [])
    (h : Follows s i t) (hports : t.PortsOk) (hfaults : t.faults = []) (htake : takeInput x t = .next u) : Follows s i u := by
  obtain ⟨f, hf, h⟩ | h := h
  · have hflight := hports.flightOk hfaults hf
    obtain rfl | rfl | rfl := hx
    · cases htake
      exact .inl (h.acceptMem hf)
    · obtain ⟨a, rest, -, rfl⟩ | ⟨g, a, rest, -, hg, hu, rfl⟩ := answerMem_next htake
      · exact .inl ⟨f, hf, h.frame_inputs⟩
      · cases hf.symm.trans hg
        have hget := hflight.isSet_of_unanswered h.cmd hu
        exact .inl (h.answer (h.cfg_eq ▸ hget)).goOn
    · cases htake
      obtain ⟨-, haccept⟩ | ⟨g, w, hg, hresp, haccept⟩ := acceptResponse_cases t <;> rw [haccept]
      · exact .inl ⟨f, hf, h⟩
      · exact .inr (h.finish hflight hs hresp)
  · obtain ⟨-, hf, hm, hresp, -⟩ := h.idle
    obtain rfl | rfl | rfl := hx
    · cases htake
      rw [acceptMem, hf]
      exact .inr h
    · obtain ⟨a, rest, -, rfl⟩ | ⟨g, a, rest, -, hg, -⟩ := answerMem_next htake
      · exact .inr h.frame_inputs
      · cases hf.symm.trans hg
    · cases htake
      rw [acceptResponse, hf]
      exact .inr h

theorem Input.IsHandshake.not_request {x : Input} (hx : x.IsHandshake) (r : Request) : x ≠ .request r := by
  obtain rfl | rfl | rfl := hx <;> nofun

/-! ### The request (R57, R87, R176) -/

theorem acceptRequest_of_unblocked {r : Request} {s : State} {i : Instr} (hdecode : decode r.word = .ok i)
    (hblocked : blocked s.cfg i (accessOf s.cfg i) r.side = none) :
    acceptRequest r s =
      .next (offerNext (newFlight r (some i) (transactions (accessOf s.cfg i) r.side)) (s.withSideband r.side)) := by
  simp [acceptRequest, hdecode, hblocked]

theorem State.Idle.portsOk {s : State} (h : s.Idle) : s.PortsOk := by
  obtain ⟨-, hf, hm, hresp, -⟩ := h
  exact portsOk_of_noFlight hf hm hresp

theorem State.Idle.faults_eq {s : State} (h : s.Idle) : s.faults = [] := by
  obtain ⟨-, -, -, -, hfaults⟩ := h
  exact hfaults

/-- The state in which a request is accepted: its sidebands are sampled, and what is left of the inputs is `is` (R83). -/
def State.sampled (s : State) (r : Request) (is : List Input) : State := { s with inputs := is, sideband := r.side }

/-- What the core does after a handshake does not look at the inputs that follow. -/
theorem offerNext_withInputs (f : Flight) (s : State) (is : List Input) :
    offerNext f { s with inputs := is } = { offerNext f s with inputs := is } := by
  unfold offerNext
  cases f.todo[Config.nextByte s.fresh % f.todo.length]? with
  | some t => rfl
  | none => by_cases hu : f.unanswered = [] <;> simp only [hu, if_true, if_false]

section
variable {s : State} {r : Request} {i : Instr} (hidle : s.Idle) (hdecode : decode r.word = .ok i)
  (hin : InContract s.cfg i r.side)
include hidle hdecode hin

/-- A command in contract is accepted by an idle core and starts with all its transactions (R46, R87). -/
theorem step_request : ∃ t g, (∀ is, step { s with inputs := .request r :: is } = .next { t with inputs := is }) ∧ t.PortsOk ∧
    Resumes (s.sampled r []) (newFlight r (some i) (transactions (accessOf s.cfg i) r.side)) t g := by
  have haccept (is : List Input) : takeInput (.request r) { s with inputs := is } =
      .next (offerNext (newFlight r (some i) (transactions (accessOf s.cfg i) r.side)) (s.sampled r is)) :=
    acceptRequest_of_unblocked hdecode (blocked_of_inContract hin)
  have hready := hidle.reqReady
  have hportsOk : State.PortsOk { s with inputs := [] } := hidle.portsOk.frame
  obtain ⟨-, -, hm, -, hfaults⟩ := hidle
  obtain ⟨g, hres⟩ := offerNext_resumes (s := s.sampled r []) (newFlight r (some i) (transactions (accessOf s.cfg i) r.side)) hm
  refine ⟨_, g, fun is => ?_, takeInput_keeps_ports hportsOk hfaults (fun _ => hready) (haccept []), hres⟩
  rw [← offerNext_withInputs]
  exact (step_input (s := { s with inputs := .request r :: is }) hfaults rfl fun _ => hready).trans (haccept is)

/-- The command just accepted, seen from the state in which the same command is one transition. -/
theorem step_request_performs (is : List Input) : ∃ t g, step { s with inputs := .request r :: is } = .next t ∧ t.PortsOk ∧
    t.faults = [] ∧ t.inputs = is ∧ t.flight = some g ∧ Performs (s.sampled r []) i t g := by
  obtain ⟨t, g, hstep, hports, hres⟩ := step_request hidle hdecode hin
  obtain ⟨-, -, hm, -, hfaults⟩ := hidle
  have hstart : Performs (s.sampled r []) i (s.sampled r []) (newFlight r (some i) (transactions (accessOf s.cfg i) r.side)) :=
    performs_newFlight rfl hm
  exact ⟨_, g, hstep is, hports.frame, (congrArg State.faults hres.frame).trans hfaults, rfl, congrArg State.flight hres.frame,
    (hstart.resumes hres).frame_inputs⟩

end

/-! ### The statements -/

/-- A run at the ports between the request and the last input: only handshakes are to come, and the command is performed or has run. -/
structure Follows.Run (s : State) (i : Instr) (t : State) : Prop where
  handshakes : ∀ x ∈ t.inputs, x.IsHandshake
  faults : t.faults = []
  ports : t.PortsOk
  follows : Follows s i t

theorem step_keeps_followsRun {s t u : State} {i : Instr} (hs : s.faults = []) (h : Follows.Run s i t) (hstep : step t = .next u) :
    Follows.Run s i u := by
  obtain ⟨hhandshakes, hfaults, hports, hfollows⟩ := h
  obtain ⟨-, ⟨-, rfl⟩ | ⟨x, rest, -, -, -, rfl⟩ | ⟨x, rest, hinputs, hready, htake⟩⟩ := step_next hstep
  · exact ⟨hhandshakes, hfaults, hports, hfollows⟩
  · exact ⟨hhandshakes, hfaults, hports, hfollows⟩
  · rw [hinputs] at hhandshakes
    have hx := hhandshakes x List.mem_cons_self
    have hports : State.PortsOk { t with inputs := rest } := hports.frame
    have hfollows : Follows s i { t with inputs := rest } := hfollows.frame_inputs
    obtain ⟨-, hrest, hkept⟩ := takeInput_frame htake
    replace hrest : u.inputs = rest := hrest
    exact
      { handshakes := fun y hy => hhandshakes y (List.mem_cons_of_mem _ (hrest ▸ hy))
        faults := (hkept hx.not_request).trans hfaults
        ports := takeInput_keeps_ports hports hfaults hready htake
        follows := takeInput_keeps_follows hx hs hfollows hports hfaults htake }

/-- Settles O53: the request starts `Performs`, every handshake keeps `Follows`, and with nothing in flight the command has run. -/
theorem portLevelAgreesWithOneTransition : Obligations.PortLevelAgreesWithOneTransition := by
  unfold Obligations.PortLevelAgreesWithOneTransition
  intro s t r es i hidle hdecode hin hes hrun hflight
  obtain ⟨u, g, hstep, hports, hfaults, hinputs, hg, hperforms⟩ := step_request_performs hidle hdecode hin es
  have hs : (s.sampled r []).faults = [] := hidle.faults_eq
  rw [run_succ_of_step (M := core) hstep] at hrun
  have hstart : Follows.Run (s.sampled r []) i u := ⟨fun x hx => hes x (hinputs ▸ hx), hfaults, hports, .inl ⟨g, hg, hperforms⟩⟩
  have hend : Follows.Run (s.sampled r []) i t :=
    run_keeps (M := core) (fun _ _ h hstep => step_keeps_followsRun hs h hstep) hstart hrun
  obtain ⟨f, hf, -⟩ | hdone := hend.follows
  · cases hflight.symm.trans hf
  · exact ⟨_, exec_of_inContract (s := s.sampled r []) hin, hdone.responses, hdone.seq, hdone.sideband, hdone.cfg, hdone.idle,
      hdone.memory⟩

/-- A run of accepted transactions that a reset ends, ends in the reset of a state in which the command is still performed. -/
theorem run_memAccepts_resetFalls {s t u : State} {i : Instr} {f : Flight} {n : Nat} (h : Performs s i t f)
    (hf : t.flight = some f) (hfaults : t.faults = []) (hinputs : t.inputs = List.replicate n .memAccept ++ [.resetFalls])
    (hrun : Host.Core.run core (n + 1) t = .next u) : ∃ v g, Performs s i v g ∧ u = resetFall v := by
  induction n generalizing t f with
  | zero =>
    rw [run_succ_of_step (M := core) (step_resetFalls hfaults hinputs)] at hrun
    cases hrun
    exact ⟨_, f, h.frame_inputs, rfl⟩
  | succ n ih =>
    have hstep := step_input hfaults hinputs nofun
    rw [run_succ_of_step (M := core) hstep] at hrun
    have h : Performs s i { t with inputs := List.replicate n .memAccept ++ [.resetFalls] } f := h.frame_inputs
    obtain ⟨g, hg, hperforms⟩ := h.acceptMem hf
    obtain ⟨-, hrest, hkept⟩ := takeInput_frame (x := .memAccept)
      (s := { t with inputs := List.replicate n .memAccept ++ [.resetFalls] }) rfl
    exact ih hperforms hg ((hkept nofun).trans hfaults) hrest hrun

/-- Settles O56: a byte is the completed command's or still waits for its write, and reset leaves memory as it is. -/
theorem resetInASetLeavesOldOrNewBytes : Obligations.ResetInASetLeavesOldOrNewBytes := by
  unfold Obligations.ResetInASetLeavesOldOrNewBytes
  intro s t r i n hidle hdecode hin hset hrun
  obtain ⟨u, g, hstep, -, hfaults, hinputs, hg, hperforms⟩ := step_request_performs hidle hdecode hin _
  rw [run_succ_of_step (M := core) hstep] at hrun
  obtain ⟨v, f, hv, rfl⟩ := run_memAccepts_resetFalls hperforms hg hfaults hinputs hrun
  refine ⟨_, exec_of_inContract (s := s.sampled r []) hin, rfl, rfl, fun a => ⟨?_, fun ha => ?_⟩⟩
  · exact (hv.memory a).symm.imp_left And.left
  · rcases hv.memory a with hnew | ⟨hold, -⟩
    · refine hnew.trans (read_completedMem_outside fun bs hbs => ?_)
      rwa [accessOf_store_length hbs]
    · exact hold

end Sys2Proof.Machine
end

section
/-!
A command completes (R110, R210). `State.remaining` counts the handshakes that are still to come: two for a transaction, one for a read
that waits for its answer, one for the response, and one for each answer owed from before a reset. Every handshake that takes place
lowers it, and while the core is not idle another can take place.
-/

namespace Sys2Proof.Machine

/-! ### The memory's answer (R88) -/

theorem answerMem_of_abandoned {s : State} {a : Nat} {rest : List Nat} (h : s.abandoned = a :: rest) :
    answerMem s = .next { s with abandoned := rest } := by
  rw [answerMem, h]

theorem answerMem_of_unanswered {s : State} {f : Flight} {a : Nat} {rest : List Nat} (hab : s.abandoned = [])
    (hf : s.flight = some f) (hu : f.unanswered = a :: rest) :
    answerMem s = .next (goOn { f with unanswered := rest, got := f.got ++ [(a, s.mem.read a)] } s) := by
  simp only [answerMem, hab, hf, hu]

theorem answerMem_of_none {s : State} (hab : s.abandoned = []) (hu : s.unanswered = []) : answerMem s = .refused .unaskedAnswer := by
  obtain hf | ⟨f, hf⟩ := Option.eq_none_or_eq_some s.flight
  · simp only [answerMem, hab, hf]
  · rw [State.unanswered_of_flight hf] at hu
    simp only [answerMem, hab, hf, hu]

/-! ### A handshake does not look at the inputs that follow it -/

theorem goOn_withInputs (f : Flight) (s : State) (is : List Input) :
    goOn f { s with inputs := is } = { goOn f s with inputs := is } := by
  obtain ⟨hm, hgo⟩ | ⟨hm, hgo⟩ := goOn_cases f s
  · rw [hgo, goOn, if_pos (Option.isSome_iff_ne_none.mpr hm)]
  · rw [hgo, ← offerNext_withInputs, goOn, hm]
    rfl

theorem acceptMem_read {s : State} {f : Flight} {a : Nat} (hf : s.flight = some f) (hm : s.memPort = some (.read a)) :
    acceptMem s = goOn { f with unanswered := f.unanswered ++ [a] } { s with memPort := none } := by
  simp only [acceptMem, hf, hm]

theorem acceptMem_write {s : State} {f : Flight} {a : Nat} {b : Byte} (hf : s.flight = some f)
    (hm : s.memPort = some (.write a b)) : acceptMem s = goOn f { s with memPort := none, mem := s.mem.write a b } := by
  simp only [acceptMem, hf, hm]

theorem acceptResponse_some {s : State} {f : Flight} {w : ResponseWord} (hf : s.flight = some f) (hresp : s.respPort = some w) :
    acceptResponse s =
      { s with flight := none, respPort := none, responses := s.responses ++ [w], seq := s.seq + 1 } := by
  simp only [acceptResponse, hf, hresp]

/-! ### What remains (R110) -/

/-- How many handshakes a state has still to see at most, until the core is idle and the memory owes nothing. -/
def State.remaining (s : State) : Nat :=
  s.abandoned.length +
    match s.flight with
    | none => 0
    | some f => 2 * (s.pending f).length + f.unanswered.length + 1

theorem remaining_of_noFlight {s : State} (hf : s.flight = none) : s.remaining = s.abandoned.length := by
  simp [State.remaining, hf]

theorem remaining_of_flight {s : State} {f : Flight} (hf : s.flight = some f) :
    s.remaining = s.abandoned.length + (2 * (s.pending f).length + f.unanswered.length + 1) := by
  simp [State.remaining, hf]

theorem Resumes.remaining {s t : State} {f g : Flight} (h : Resumes s f t g) :
    t.remaining = s.abandoned.length + (2 * (s.pending f).length + f.unanswered.length + 1) := by
  rw [remaining_of_flight (congrArg State.flight h.frame), h.pending.length_eq, congrArg Flight.unanswered h.same,
    congrArg State.abandoned h.frame]

/-- The command accepted at index `k` is in flight, or it is complete and the core is idle. -/
def Completing (k : Nat) (s : State) : Prop := (s.flight ≠ none ∧ s.seq = k) ∨ (s.Idle ∧ s.seq = k + 1)

theorem Completing.goOn {k : Nat} {s : State} {f : Flight} (h : s.seq = k) : Completing k (goOn f s) := by
  obtain ⟨g, hres⟩ := goOn_resumes f s
  refine .inl ⟨?_, by rw [goOn_seq, h]⟩
  rw [congrArg State.flight hres.frame]
  nofun

theorem Completing.seq_of_flight {k : Nat} {s : State} {f : Flight} (h : Completing k s) (hf : s.flight = some f) : s.seq = k := by
  obtain ⟨-, hseq⟩ | ⟨⟨-, hnone, -⟩, -⟩ := h
  · exact hseq
  · cases hf.symm.trans hnone

/-- What an offered handshake does: the next state is the same but for the inputs, whatever these are; and less remains. -/
structure Proceeds (k : Nat) (x : Input) (s t : State) : Prop where
  takes : ∀ is, takeInput x { s with inputs := is } = .next { t with inputs := is }
  less : t.remaining < s.remaining
  completing : Completing k t

section
variable {k : Nat} {s : State} {f : Flight}

theorem proceeds_acceptRead {a : Nat} (hf : s.flight = some f) (hm : s.memPort = some (.read a)) (hseq : s.seq = k) :
    Proceeds k .memAccept s (goOn { f with unanswered := f.unanswered ++ [a] } { s with memPort := none }) := by
  obtain ⟨g, hres⟩ := goOn_resumes { f with unanswered := f.unanswered ++ [a] } { s with memPort := none }
  refine ⟨fun is => ?_, ?_, .goOn hseq⟩
  · rw [takeInput, acceptMem_read (s := { s with inputs := is }) hf hm, ← goOn_withInputs]
  · rw [hres.remaining, remaining_of_flight hf]
    simp [State.pending, hm]
    omega

theorem proceeds_acceptWrite {a : Nat} {b : Byte} (hf : s.flight = some f) (hm : s.memPort = some (.write a b)) (hseq : s.seq = k) :
    Proceeds k .memAccept s (goOn f { s with memPort := none, mem := s.mem.write a b }) := by
  obtain ⟨g, hres⟩ := goOn_resumes f { s with memPort := none, mem := s.mem.write a b }
  refine ⟨fun is => ?_, ?_, .goOn hseq⟩
  · rw [takeInput, acceptMem_write (s := { s with inputs := is }) hf hm, ← goOn_withInputs]
  · rw [hres.remaining, remaining_of_flight hf]
    simp [State.pending, hm]

theorem proceeds_dropAnswer {a : Nat} {rest : List Nat} (hab : s.abandoned = a :: rest) (hk : Completing k s) :
    Proceeds k .memAnswer s { s with abandoned := rest } := by
  refine ⟨fun is => answerMem_of_abandoned (s := { s with inputs := is }) hab, ?_, hk⟩
  simp only [State.remaining, hab, List.length_cons]
  exact Nat.add_lt_add_right (Nat.lt_succ_self _) _

theorem proceeds_answer {a : Nat} {rest : List Nat} (hab : s.abandoned = []) (hf : s.flight = some f) (hu : f.unanswered = a :: rest)
    (hseq : s.seq = k) :
    Proceeds k .memAnswer s (goOn { f with unanswered := rest, got := f.got ++ [(a, s.mem.read a)] } s) := by
  obtain ⟨g, hres⟩ := goOn_resumes { f with unanswered := rest, got := f.got ++ [(a, s.mem.read a)] } s
  refine ⟨fun is => ?_, ?_, .goOn hseq⟩
  · rw [takeInput, answerMem_of_unanswered (s := { s with inputs := is }) hab hf hu, ← goOn_withInputs]
  · rw [hres.remaining, remaining_of_flight hf]
    simp [State.pending, hu]

theorem proceeds_respAccept {w : ResponseWord} (hflight : s.FlightOk f) (hfaults : s.faults = []) (hf : s.flight = some f)
    (hresp : s.respPort = some w) (hseq : s.seq = k) :
    Proceeds k .respAccept s
      { s with flight := none, respPort := none, responses := s.responses ++ [w], seq := s.seq + 1 } := by
  refine ⟨fun is => ?_, ?_, .inr ⟨⟨hflight.outOfReset, rfl, (hflight.responds w hresp).1, rfl, hfaults⟩, congrArg (· + 1) hseq⟩⟩
  · rw [takeInput, acceptResponse_some (s := { s with inputs := is }) hf hresp]
  · rw [remaining_of_flight hf, remaining_of_noFlight rfl]
    exact Nat.lt_add_of_pos_right (Nat.succ_pos _)

end

theorem offers_isHandshake {s : State} {x : Input} (h : s.offers x = true) : x.IsHandshake := by
  cases x with
  | memAccept => exact .inl rfl
  | memAnswer => exact .inr (.inl rfl)
  | respAccept => exact .inr (.inr rfl)
  | command | request | resetFalls | resetRises | foreign => cases h

/-- A handshake does not wait for the request port (R87). -/
theorem Input.IsHandshake.ready {x : Input} {s : State} (hx : x.IsHandshake) (hwaits : x.waitsForReady = true) :
    s.reqReady = true := by
  obtain rfl | rfl | rfl := hx <;> cases hwaits

/-- A handshake that takes place answers a next state, and less remains (R87, R88, R110). -/
theorem proceeds_of_offers {s : State} {x : Input} {k : Nat} (hports : s.PortsOk) (hfaults : s.faults = []) (hk : Completing k s)
    (h : s.offers x = true) : ∃ t, Proceeds k x s t := by
  obtain hf | ⟨f, hf⟩ := Option.eq_none_or_eq_some s.flight
  · obtain ⟨hm, hresp⟩ := hports.noFlight hf
    obtain rfl | rfl | rfl := offers_isHandshake h
    · simp [State.offers, hm] at h
    · obtain ⟨a, rest, hab⟩ : ∃ a rest, s.abandoned = a :: rest :=
        List.exists_cons_of_ne_nil (by simpa [State.offers, State.unanswered_of_none hf] using h)
      exact ⟨_, proceeds_dropAnswer hab hk⟩
    · simp [State.offers, hresp] at h
  · have hseq := hk.seq_of_flight hf
    obtain rfl | rfl | rfl := offers_isHandshake h
    · obtain ⟨m, hm⟩ := Option.isSome_iff_exists.mp h
      cases m with
      | read a => exact ⟨_, proceeds_acceptRead hf hm hseq⟩
      | write a b => exact ⟨_, proceeds_acceptWrite hf hm hseq⟩
    · cases hab : s.abandoned with
      | cons a rest => exact ⟨_, proceeds_dropAnswer hab hk⟩
      | nil =>
        obtain ⟨a, rest, hu⟩ : ∃ a rest, f.unanswered = a :: rest :=
          List.exists_cons_of_ne_nil (by simpa [State.offers, State.unanswered_of_flight hf, hab] using h)
        exact ⟨_, proceeds_answer hab hf hu hseq⟩
    · obtain ⟨w, hresp⟩ := Option.isSome_iff_exists.mp h
      exact ⟨_, proceeds_respAccept (hports.flightOk hfaults hf) hfaults hf hresp hseq⟩

/-- Handshakes that take place one after the other: no more than remain, and none of them faults. -/
theorem takePlace_run {es : List Input} {s : State} {k : Nat} (hports : s.PortsOk) (hfaults : s.faults = []) (hk : Completing k s)
    (h : TakePlace es s) :
    es.length ≤ s.remaining ∧ ∃ t, Host.Core.run core es.length { s with inputs := es } = .next t ∧ t.PortsOk ∧ t.faults = [] ∧
      Completing k t := by
  induction es generalizing s with
  | nil => exact ⟨Nat.zero_le _, _, rfl, hports.frame, hfaults, hk⟩
  | cons x es ih =>
    obtain ⟨hoffer, htakes⟩ := h
    obtain ⟨t, hproceeds⟩ := proceeds_of_offers hports hfaults hk hoffer
    have hhandshake := offers_isHandshake hoffer
    have hstep (is : List Input) : step { s with inputs := x :: is } = .next { t with inputs := is } :=
      (step_input (s := { s with inputs := x :: is }) hfaults rfl hhandshake.ready).trans (hproceeds.takes is)
    have hportsS : State.PortsOk { s with inputs := [] } := hports.frame
    have hports' : State.PortsOk { t with inputs := [] } :=
      takeInput_keeps_ports hportsS hfaults hhandshake.ready (hproceeds.takes [])
    obtain ⟨-, -, hkept⟩ := takeInput_frame (hproceeds.takes [])
    have hfaults' : t.faults = [] := (hkept hhandshake.not_request).trans hfaults
    obtain ⟨hlength, hrun⟩ := ih hports' hfaults' hproceeds.completing (htakes _ (hstep []))
    refine ⟨Nat.lt_of_le_of_lt hlength hproceeds.less, ?_⟩
    rw [List.length_cons, run_succ_of_step (M := core) (hstep es)]
    exact hrun

/-- While a command is in flight, another handshake can take place (R110). -/
theorem State.FlightOk.offers {s : State} {f : Flight} (h : s.FlightOk f) (hf : s.flight = some f) : ∃ x, s.offers x = true := by
  cases hresp : s.respPort with
  | some w => exact ⟨.respAccept, by simp [State.offers, hresp]⟩
  | none =>
    obtain hm | hu := h.waitsOnly hresp
    · exact ⟨.memAccept, Option.isSome_iff_ne_none.mpr hm⟩
    · exact ⟨.memAnswer, by simp [State.offers, State.unanswered_of_flight hf, hu]⟩

/-- Settles O54: what remains after the request is two for each byte, one for the response, and what the memory owes from before. -/
theorem fairCommandCompletes : Obligations.FairCommandCompletes := by
  unfold Obligations.FairCommandCompletes
  intro s r i es hidle hdecode hin htakes
  obtain ⟨u, g, hstep, hports, hres⟩ := step_request hidle hdecode hin
  obtain ⟨-, -, hm, -, hfaults⟩ := hidle
  have hfaults' : u.faults = [] := (congrArg State.faults hres.frame).trans hfaults
  have hflight : u.flight = some g := congrArg State.flight hres.frame
  have hk : Completing s.seq u := .inl ⟨hflight ▸ nofun, (congrArg State.seq hres.frame :)⟩
  obtain ⟨hlength, t, hrun, hportsT, hfaultsT, hdone⟩ :=
    takePlace_run (s := { u with inputs := [] }) hports.frame hfaults' hk (htakes _ (hstep []))
  have hremaining : u.remaining = s.abandoned.length + (2 * (accessOf s.cfg i).loc.width + 1) := by
    rw [hres.remaining, ← length_transactions s.cfg i r.side]
    simp [State.pending, State.sampled, hm, newFlight]
  refine ⟨?_, t, ?_, hfaultsT, ?_⟩
  · have hlength : es.length ≤ u.remaining := hlength
    omega
  · rw [run_succ_of_step (M := core) (hstep es)]
    exact hrun
  · obtain ⟨hflightT, -⟩ | hidleT := hdone
    · obtain ⟨f, hf⟩ := Option.ne_none_iff_exists'.mp hflightT
      exact .inr ⟨hflightT, (hportsT.flightOk hfaultsT hf).offers hf⟩
    · exact .inl hidleT

end Sys2Proof.Machine
end

section
/-!
Steps and runs (R14, R32, R87, R88, R171, R211): what one step does with each kind of input, what a recorded fault does to a run, and
the run of a command list.
-/

namespace Sys2Proof.Machine

/-! ### No input, and no further step (R14, R171) -/

theorem step_of_no_input {s : State} (hfaults : s.faults = []) (hinputs : s.inputs = []) : step s = .next s := by
  simp only [step, nextEvent, hfaults, hinputs]

theorem step_of_fault {s : State} (h : s.faults ≠ []) : step s = .fault .runFaulted := by
  obtain ⟨f, fs, hfs⟩ := List.exists_cons_of_ne_nil h
  rw [step, hfs]

theorem advance_of_next {s t : State} (h : step s = .next t) : advance s = t := by
  rw [advance, h]

theorem advance_of_fault {s : State} {f : Fault} (h : step s = .fault f) : advance s = { s with faults := s.faults ++ [f] } := by
  rw [advance, h]

/-- Settles O12: the step with no input is the identity, and so is every run of it. -/
theorem nothingRunsWithoutInput : Obligations.NothingRunsWithoutInput := by
  unfold Obligations.NothingRunsWithoutInput
  intro n s hfaults hinputs
  have hstep := step_of_no_input hfaults hinputs
  induction n with
  | zero => exact ⟨hstep, rfl, rfl⟩
  | succ n ih =>
    obtain ⟨-, hrun, hfor⟩ := ih
    refine ⟨hstep, (run_succ_of_step (M := core) hstep n).trans hrun, ?_⟩
    rw [runFor, advance_of_next hstep, hfor]

/-- A run only adds to the fault record (R32). -/
theorem advance_faults (s : State) : ∃ fs, (advance s).faults = s.faults ++ fs := by
  cases h : step s with
  | next t =>
    obtain ⟨hfaults, -⟩ := step_next h
    exact ⟨t.faults, by rw [advance_of_next h, hfaults, List.nil_append]⟩
  | fault f => exact ⟨[f], by rw [advance_of_fault h]⟩
  | refused q => exact ⟨[], by rw [advance, h, List.append_nil]⟩

theorem runFor_faults (n : Nat) (s : State) : ∃ fs, (runFor n s).faults = s.faults ++ fs := by
  induction n generalizing s with
  | zero => exact ⟨[], (List.append_nil _).symm⟩
  | succ n ih =>
    obtain ⟨fs, hfs⟩ := advance_faults s
    obtain ⟨fs', hfs'⟩ := ih (advance s)
    exact ⟨fs ++ fs', by rw [runFor, hfs', hfs, List.append_assoc]⟩

theorem runFor_of_fault {s : State} (h : s.faults ≠ []) (n : Nat) : runFor n s = { s with faults := (runFor n s).faults } := by
  induction n generalizing s with
  | zero => rfl
  | succ n ih =>
    have hadvance := advance_of_fault (step_of_fault h)
    have hrun := ih (s := advance s) (by simp [hadvance])
    rw [runFor, hrun, hadvance]

theorem result_of_fault {s : State} (h : s.faults ≠ []) (k : Nat) : s.result k = none := by
  simp [State.result, State.ended, h]

theorem runFor_result_of_fault {s : State} (h : s.faults ≠ []) (n k : Nat) : (runFor n s).result k = none := by
  obtain ⟨fs, hfs⟩ := runFor_faults n s
  exact result_of_fault (by simp [hfs, h]) k

/-- Settles O13: a step on a recorded fault is `runFaulted`, which the run adds to the record and leaves the rest. -/
theorem faultRecordIsNeverLeft : Obligations.FaultRecordIsNeverLeft := by
  unfold Obligations.FaultRecordIsNeverLeft
  exact ⟨fun s => step_of_fault, fun n s => ⟨runFor_faults n s, fun h => ⟨runFor_of_fault h n, runFor_result_of_fault h n⟩⟩⟩

/-! ### A request on the port, and a request that must wait (R87, R171, R172) -/

/-- Settles O10: the request is taken off the list and issued, and issuing a word that decodes is `exec`. -/
theorem stepRunsDecodedCommand : Obligations.StepRunsDecodedCommand := by
  unfold Obligations.StepRunsDecodedCommand
  intro s r rest i hfaults hready hinputs hdecode
  rw [step_input hfaults hinputs fun _ => hready, takeInput, issue, hdecode]
  rfl

/-- The fault of a command whose buffer is too short (R172). -/
def contractFault (c : Config) (i : Instr) (b : Sideband) : Fault :=
  .outOfContract i (accessOf c i).loc.off (accessOf c i).loc.width (b.bufLen c)

section
variable {s : State} {r : Request} {i : Instr} (hdecode : decode r.word = .ok i) (hshort : r.side.bufLen s.cfg < leastLen s.cfg i)
include hshort

theorem blocked_of_lt_leastLen : blocked s.cfg i (accessOf s.cfg i) r.side = some (contractFault s.cfg i r.side) :=
  blocked_of_short (by rwa [accessOf_minLen])

include hdecode

theorem acceptRequest_of_short (hdebug : s.cfg.debugAssert = false) :
    acceptRequest r s = .fault (contractFault s.cfg i r.side) := by
  simp [acceptRequest, hdecode, blocked_of_lt_leastLen hshort, contractFault, hdebug]

theorem acceptRequest_of_short_debug (hdebug : s.cfg.debugAssert = true) :
    acceptRequest r s = .next { s.withSideband r.side with
      flight := some (newFlight r (some i) []), respPort := some (responseWord .ooc 0),
      faults := s.faults ++ [contractFault s.cfg i r.side] } := by
  simp [acceptRequest, hdecode, blocked_of_lt_leastLen hshort, contractFault, hdebug]

end

theorem responseWord_ooc_zero : responseWord .ooc 0 = 0x200000000 := by decide

/-- A run that has recorded a fault goes no further, whatever comes next (R171). -/
theorem run_ends_of_fault {s : State} (h : s.faults ≠ []) (es : List Input) (n k : Nat) :
    step { s with inputs := es } = .fault .runFaulted ∧ (runFor n { s with inputs := es }).result k = none :=
  ⟨step_of_fault h, runFor_result_of_fault (s := { s with inputs := es }) h n k⟩

/-- Settles O49: the contract is tested first on both routes; with `DEBUG_ASSERT = 1` the fault is recorded by the step itself, else by
the run. -/
theorem outOfContractIsTheFault : Obligations.OutOfContractIsTheFault := by
  unfold Obligations.OutOfContractIsTheFault
  intro s r rest i hidle hdecode hshort
  have hready := hidle.reqReady
  obtain ⟨-, -, hm, -, hfaults⟩ := hidle
  have hcommand (hinputs : s.inputs = .command r :: rest) : step s = .fault (contractFault s.cfg i r.side) := by
    rw [stepRunsDecodedCommand s r rest i hfaults hready hinputs hdecode]
    exact exec_of_short (s := s.sampled r rest) hshort
  have hrequest (hinputs : s.inputs = .request r :: rest) : step s = acceptRequest r { s with inputs := rest } :=
    step_input hfaults hinputs fun _ => hready
  have hfault (hinputs : s.inputs = .request r :: rest) (hdebug : s.cfg.debugAssert = false) :
      step s = .fault (contractFault s.cfg i r.side) :=
    (hrequest hinputs).trans (acceptRequest_of_short (s := { s with inputs := rest }) hdecode hshort hdebug)
  have hoffer (hinputs : s.inputs = .request r :: rest) (hdebug : s.cfg.debugAssert = true) :=
    (hrequest hinputs).trans (acceptRequest_of_short_debug (s := { s with inputs := rest }) hdecode hshort hdebug)
  have hrecorded (hinputs : s.inputs = .command r :: rest ∨ s.inputs = .request r :: rest) :
      (advance s).faults = [contractFault s.cfg i r.side] := by
    obtain hinputs | hinputs := hinputs
    · rw [advance_of_fault (hcommand hinputs), hfaults, List.nil_append]
    · cases hdebug : s.cfg.debugAssert with
      | false => rw [advance_of_fault (hfault hinputs hdebug), hfaults, List.nil_append]
      | true => rw [advance_of_next (hoffer hinputs hdebug), hfaults, List.nil_append]
  refine ⟨_, rfl, hcommand, hfault, fun hinputs hdebug => ⟨_, hoffer hinputs hdebug, ?_⟩, fun hinputs => ⟨hrecorded hinputs, ?_⟩⟩
  · rw [← responseWord_ooc_zero, hfaults]
    exact ⟨rfl, hm, rfl, rfl⟩
  · exact run_ends_of_fault (by simp [hrecorded hinputs])

/-! ### Offers that wait and offers that are held (R87, R88) -/

theorem reqReady_of_flight {s : State} {f : Flight} (hf : s.flight = some f) : s.reqReady = false := by
  simp [State.reqReady, hf]

theorem goOn_flight (f : Flight) (s : State) : ∃ g, (goOn f s).flight = some g := by
  obtain ⟨g, hres⟩ := goOn_resumes f s
  exact ⟨g, congrArg State.flight hres.frame⟩

/-- A command stays in flight until its response is accepted or reset falls (R87, R200). -/
theorem takeInput_keeps_flight {x : Input} {s t : State} {f : Flight} (hf : s.flight = some f) (hwaits : x.waitsForReady = false)
    (hresp : x ≠ .respAccept) (hreset : x ≠ .resetFalls) (h : takeInput x s = .next t) : ∃ g, t.flight = some g := by
  cases x with
  | command r => cases hwaits
  | request r => cases hwaits
  | memAccept =>
    cases h
    obtain ⟨-, haccept⟩ | ⟨g, a, -, -, haccept⟩ | ⟨g, a, b, -, -, haccept⟩ := acceptMem_cases s <;> rw [haccept]
    · exact ⟨f, hf⟩
    · exact goOn_flight _ _
    · exact goOn_flight _ _
  | memAnswer =>
    obtain ⟨a, rest, -, rfl⟩ | ⟨g, a, rest, -, -, -, rfl⟩ := answerMem_next h
    · exact ⟨f, hf⟩
    · exact goOn_flight _ _
  | respAccept => exact absurd rfl hresp
  | resetFalls => exact absurd rfl hreset
  | resetRises =>
    cases h
    exact ⟨f, hf⟩
  | foreign a =>
    obtain ⟨rfl, -, -⟩ := foreignAccess_next h
    cases a <;> exact ⟨f, hf⟩

/-- What a step does with its next input when a command is in flight: an offer on the request port waits, all else takes effect. -/
theorem step_inFlight {s t : State} {f : Flight} {x : Input} {rest : List Input} (hf : s.flight = some f)
    (hinputs : s.inputs = x :: rest) (h : step s = .next t) :
    s.faults = [] ∧ ((x.waitsForReady = true ∧ t = s) ∨
      (x.waitsForReady = false ∧ takeInput x { s with inputs := rest } = .next t)) := by
  obtain ⟨hfaults, -⟩ := step_next h
  refine ⟨hfaults, ?_⟩
  cases hwaits : x.waitsForReady with
  | true =>
    cases (step_waits hfaults hinputs hwaits (reqReady_of_flight hf)).symm.trans h
    exact .inl ⟨rfl, rfl⟩
  | false => exact .inr ⟨rfl, (step_input hfaults hinputs (by simp [hwaits])).symm.trans h⟩

/-- Settles O50: an offer that must wait changes nothing, and a command stays in flight. -/
theorem requestWaitsUntilReady : Obligations.RequestWaitsUntilReady := by
  unfold Obligations.RequestWaitsUntilReady
  intro s r rest hfaults hready
  refine ⟨fun hinputs => step_waits hfaults hinputs rfl hready, fun hinputs => step_waits hfaults hinputs rfl hready, ?_⟩
  intro t x hflight hinputs hresp hreset hstep
  obtain ⟨f, hf⟩ := Option.isSome_iff_exists.mp hflight
  obtain ⟨-, ⟨-, rfl⟩ | ⟨hwaits, htake⟩⟩ := step_inFlight hf hinputs hstep
  · exact hready
  · obtain ⟨g, hg⟩ := takeInput_keeps_flight (s := { s with inputs := rest }) hf hwaits hresp hreset htake
    exact reqReady_of_flight hg

section
variable {s t : State} {f : Flight} {x : Input} (hflight : s.FlightOk f) (hf : s.flight = some f)
  (hwaits : x.waitsForReady = false) (hreset : x ≠ .resetFalls) (h : takeInput x s = .next t)
include hflight hf hwaits hreset h

/-- An offered response is held until it is accepted (R87). -/
theorem takeInput_holds_response {w : ResponseWord} (hw : s.respPort = some w) (hx : x ≠ .respAccept) : t.respPort = some w := by
  obtain ⟨hm, hu, -⟩ := hflight.responds w hw
  cases x with
  | command r => cases hwaits
  | request r => cases hwaits
  | memAccept =>
    cases h
    rw [acceptMem, hf, hm]
    exact hw
  | memAnswer =>
    obtain ⟨a, rest, -, rfl⟩ | ⟨g, a, rest, -, hg, hu', -⟩ := answerMem_next h
    · exact hw
    · cases hf.symm.trans hg
      cases hu.symm.trans hu'
  | respAccept => exact absurd rfl hx
  | resetFalls => exact absurd rfl hreset
  | resetRises =>
    cases h
    exact hw
  | foreign a =>
    obtain ⟨rfl, -, -⟩ := foreignAccess_next h
    cases a <;> exact hw

/-- An offered transaction is held until it is accepted (R88). -/
theorem takeInput_holds_transaction {m : MemTxn} (hm : s.memPort = some m) (hx : x ≠ .memAccept) : t.memPort = some m := by
  cases x with
  | command r => cases hwaits
  | request r => cases hwaits
  | memAccept => exact absurd rfl hx
  | memAnswer =>
    obtain ⟨a, rest, -, rfl⟩ | ⟨g, a, rest, -, -, -, rfl⟩ := answerMem_next h
    · exact hm
    · rw [goOn, if_pos (by simp [hm])]
      exact hm
  | respAccept =>
    cases h
    rw [acceptResponse, hf, hflight.respPort_of_memPort hm]
    exact hm
  | resetFalls => exact absurd rfl hreset
  | resetRises =>
    cases h
    exact hm
  | foreign a =>
    obtain ⟨rfl, -, -⟩ := foreignAccess_next h
    cases a <;> exact hm

end

/-- A valid port belongs to a command in flight. -/
theorem State.PortsOk.exists_flight {s : State} (h : s.PortsOk) (hport : s.memPort ≠ none ∨ s.respPort ≠ none) :
    ∃ f, s.flight = some f := by
  obtain hf | hf := Option.eq_none_or_eq_some s.flight
  · obtain ⟨hm, hresp⟩ := h.noFlight hf
    exact hport.elim (absurd hm) (absurd hresp)
  · exact hf

/-- Settles O51: no input but the one that accepts an offer, and reset, touches it. -/
theorem offersAreHeldUntilAccepted : Obligations.OffersAreHeldUntilAccepted := by
  unfold Obligations.OffersAreHeldUntilAccepted
  rintro s t x rest ⟨-, -, hports⟩ hinputs hstep
  refine ⟨fun w hw hx hreset => ?_, fun m hm hx hreset => ?_⟩
  · obtain ⟨f, hf⟩ := hports.exists_flight (.inr (hw ▸ nofun))
    obtain ⟨hfaults, ⟨-, rfl⟩ | ⟨hwaits, htake⟩⟩ := step_inFlight hf hinputs hstep
    · exact hw
    · exact takeInput_holds_response (s := { s with inputs := rest }) (hports.flightOk hfaults hf).frame hf hwaits hreset htake hw hx
  · obtain ⟨f, hf⟩ := hports.exists_flight (.inl (hm ▸ nofun))
    obtain ⟨hfaults, ⟨-, rfl⟩ | ⟨hwaits, htake⟩⟩ := step_inFlight hf hinputs hstep
    · exact hm
    · exact takeInput_holds_transaction (s := { s with inputs := rest }) (hports.flightOk hfaults hf).frame hf hwaits hreset htake
        hm hx

/-! ### The memory port (R88) -/

theorem goOn_unanswered (f : Flight) (s : State) : (goOn f s).unanswered = f.unanswered := by
  obtain ⟨g, hres⟩ := goOn_resumes f s
  rw [State.unanswered_of_flight (congrArg State.flight hres.frame)]
  exact (congrArg Flight.unanswered hres.same :)

/-- What an accepted transaction does (R88). -/
theorem acceptMem_spec {s : State} {f : Flight} (hf : s.flight = some f) :
    (acceptMem s).abandoned = s.abandoned ∧
    (s.memPort = none → (acceptMem s).mem = s.mem ∧ (acceptMem s).flight = s.flight) ∧
    (∀ a b, s.memPort = some (.write a b) →
      (acceptMem s).mem = s.mem.write a b ∧ (acceptMem s).unanswered = s.unanswered) ∧
    ∀ a, s.memPort = some (.read a) → (acceptMem s).mem = s.mem ∧ (acceptMem s).unanswered = s.unanswered ++ [a] := by
  cases hm : s.memPort with
  | none =>
    have haccept : acceptMem s = s := by simp only [acceptMem, hf, hm]
    rw [haccept]
    exact ⟨rfl, fun _ => ⟨rfl, rfl⟩, nofun, nofun⟩
  | some m =>
    cases m with
    | read a =>
      rw [acceptMem_read hf hm, goOn_abandoned, goOn_mem, goOn_unanswered, State.unanswered_of_flight hf]
      refine ⟨rfl, nofun, nofun, fun a' ha => ?_⟩
      cases ha
      exact ⟨rfl, rfl⟩
    | write a b =>
      rw [acceptMem_write hf hm, goOn_abandoned, goOn_mem, goOn_unanswered, State.unanswered_of_flight hf]
      refine ⟨rfl, nofun, fun a' b' ha => ?_, nofun⟩
      cases ha
      exact ⟨rfl, rfl⟩

/-- Settles O52: one lemma for each of the memory's handshakes, and reset. -/
theorem memoryPortTransactions : Obligations.MemoryPortTransactions := by
  unfold Obligations.MemoryPortTransactions
  intro s rest hfaults
  have hstep {x : Input} (hinputs : s.inputs = x :: rest) (hx : x.waitsForReady = false) :=
    step_input hfaults hinputs fun h => absurd (hx.symm.trans h) nofun
  refine ⟨fun f hf hinputs => ?_, fun a as hinputs hab => ?_, fun f a as hf hinputs hab hu => ?_, fun hinputs hab hu => ?_,
    fun hinputs => ?_⟩
  · exact ⟨_, hstep hinputs rfl, acceptMem_spec (s := { s with inputs := rest }) hf⟩
  · exact (hstep hinputs rfl).trans (answerMem_of_abandoned (s := { s with inputs := rest }) hab)
  · obtain ⟨g, hres⟩ := goOn_resumes { f with unanswered := as, got := f.got ++ [(a, s.mem.read a)] } { s with inputs := rest }
    refine ⟨_, g, (hstep hinputs rfl).trans (answerMem_of_unanswered (s := { s with inputs := rest }) hab hf hu), ?_⟩
    exact ⟨goOn_mem _ _, (goOn_abandoned _ _).trans hab, congrArg State.flight hres.frame, congrArg Flight.unanswered hres.same,
      congrArg Flight.got hres.same⟩
  · exact (hstep hinputs rfl).trans (answerMem_of_none (s := { s with inputs := rest }) hab hu)
  · exact ⟨_, step_resetFalls hfaults hinputs, rfl, rfl⟩

/-! ### Other agents (R60) -/

/-- An access breaks the exclusivity of a command in flight exactly if it is in its buffer and one of the two writes (R60). -/
theorem racedBy_isSome_iff (s : State) (a : ForeignAccess) :
    (∃ i, s.racedBy a = some i) ↔
      ∃ f i, s.flight = some f ∧ f.cmd = some i ∧
        f.req.side.base ≤ a.addr ∧ a.addr < f.req.side.base + f.req.side.bufLen s.cfg ∧
        ((∃ addr b, a = .write addr b) ∨ isSet s.cfg i = true) := by
  cases hf : s.flight with
  | none => simp [State.racedBy, hf]
  | some f =>
    cases hcmd : f.cmd with
    | none => simp [State.racedBy, hf, races, hcmd]
    | some i => cases a <;> simp [State.racedBy, hf, races, hcmd, Sideband.holds, ForeignAccess.addr, and_assoc]

/-- What another agent's access does, whole (R25, R60; log 16). -/
theorem foreignAccess_cases (a : ForeignAccess) (s : State) :
    (s.cfg.addressSpace ≤ a.addr ∧ foreignAccess a s = .fault (.noSuchByte a.addr)) ∨
    (a.addr < s.cfg.addressSpace ∧ (∃ i, s.racedBy a = some i ∧ foreignAccess a s = .fault (.race i))) ∨
    (a.addr < s.cfg.addressSpace ∧ s.racedBy a = none ∧ foreignAccess a s = .next (foreignEffect a s)) := by
  unfold foreignAccess
  split
  · next ha => exact .inl ⟨ha, rfl⟩
  · next ha =>
    cases s.racedBy a with
    | none => exact .inr (.inr ⟨by omega, rfl, rfl⟩)
    | some i => exact .inr (.inl ⟨by omega, i, rfl, rfl⟩)

theorem foreignEffect_eq (a : ForeignAccess) (s : State) :
    ∃ m, foreignEffect a s = { s with mem := m } ∧ (∀ addr b, a = .write addr b → m = s.mem.write addr b) ∧
      ∀ addr, a = .read addr → m = s.mem := by
  cases a with
  | read addr => exact ⟨s.mem, rfl, nofun, fun _ _ => rfl⟩
  | write addr b =>
    refine ⟨s.mem.write addr b, rfl, fun _ _ h => ?_, nofun⟩
    cases h
    rfl

/-- Settles O55: the three outcomes of an access, and when it races. -/
theorem raceIsExactlyABrokenExclusivity : Obligations.RaceIsExactlyABrokenExclusivity := by
  unfold Obligations.RaceIsExactlyABrokenExclusivity
  intro s a rest hfaults hinputs
  have hstep : step s = foreignAccess a { s with inputs := rest } := step_input hfaults hinputs nofun
  rw [← racedBy_isSome_iff, hstep]
  obtain ⟨ha, haccess⟩ | ⟨ha, i, hrace, haccess⟩ | ⟨ha, hrace, haccess⟩ := foreignAccess_cases a { s with inputs := rest } <;>
    rw [haccess]
  · replace ha : s.cfg.addressSpace ≤ a.addr := ha
    exact ⟨fun _ => rfl, ⟨nofun, fun h => by omega⟩, fun h => by omega⟩
  · replace ha : a.addr < s.cfg.addressSpace := ha
    exact ⟨fun h => by omega, ⟨fun _ => ⟨ha, i, hrace⟩, fun _ => ⟨i, rfl⟩⟩, fun _ hno => absurd ⟨i, rfl⟩ hno⟩
  · replace ha : a.addr < s.cfg.addressSpace := ha
    obtain ⟨m, heffect, hm⟩ := foreignEffect_eq a { s with inputs := rest }
    refine ⟨fun h => by omega, ⟨nofun, fun ⟨_, i, hi⟩ => ?_⟩, fun _ _ => ⟨m, congrArg Host.Outcome.next heffect, hm⟩⟩
    cases hrace.symm.trans hi

/-! ### A write between two commands (R60) -/

theorem memRead_write {m : Memory} {a addr n : Nat} (b : Byte) (hlo : a ≤ addr) :
    memRead (m.write addr b) a n = (memRead m a n).set (addr - a) b := by
  induction n generalizing a with
  | zero => rfl
  | succ n ih =>
    obtain rfl | hlt := Nat.eq_or_lt_of_le hlo
    · rw [memRead, memRead, Memory.read_write_same, memRead_write_below (Nat.lt_succ_self a), Nat.sub_self, List.set_cons_zero]
    · rw [memRead, memRead, Memory.read_write_other m b (by omega), ih hlt, show addr - a = addr - (a + 1) + 1 by omega,
        List.set_cons_succ]

/-- On an idle core another agent's write to an address that exists lands (R60). -/
theorem step_foreign_write {s : State} {addr : Nat} {b : Byte} {rest : List Input} (hidle : s.Idle)
    (ha : addr < s.cfg.addressSpace) (hinputs : s.inputs = .foreign (.write addr b) :: rest) :
    step s = .next { s with inputs := rest, mem := s.mem.write addr b } := by
  obtain ⟨-, hf, -, -, hfaults⟩ := hidle
  have hstep : step s = foreignAccess (.write addr b) { s with inputs := rest } := step_input hfaults hinputs nofun
  rw [hstep]
  simp [foreignAccess, ForeignAccess.addr, Nat.not_le.mpr ha, State.racedBy, hf, foreignEffect]

/-- A step performs a command in contract whole (R46). -/
theorem step_command_of_inContract {s : State} {r : Request} {rest : List Input} {i : Instr} (hidle : s.Idle)
    (hdecode : decode r.word = .ok i) (hin : InContract s.cfg i r.side) (hinputs : s.inputs = .command r :: rest) :
    step s = .next (complete (accessOf s.cfg i) (s.sampled r rest)) := by
  rw [stepRunsDecodedCommand s r rest i hidle.faults_eq hidle.reqReady hinputs hdecode]
  exact exec_of_inContract (s := s.sampled r rest) hin

/-- Settles O57: the write lands, and the get reads its range out of the memory with that byte in it. -/
theorem writesBetweenCommandsAreSeen : Obligations.WritesBetweenCommandsAreSeen := by
  unfold Obligations.WritesBetweenCommandsAreSeen
  intro s addr b i n r rest hidle hdecode hin hload hlo hhi hinputs
  obtain ⟨-, htop⟩ := (blocked_eq_none_iff _ _ _ _).mp (blocked_of_inContract hin)
  have hwrite := step_foreign_write hidle (by omega) hinputs
  have hget := step_command_of_inContract (s := { s with inputs := .command r :: rest, mem := s.mem.write addr b }) hidle hdecode
    hin rfl
  refine ⟨_, (run_succ_of_step (M := core) hwrite 1).trans (run_succ_of_step (M := core) hget 0), ?_⟩
  rw [complete_responses, completedValue_load hload, ← memRead_write b hlo]
  rfl

/-! ### The run of a command list (R211) -/

/-- A run that has still the commands `cmds` to take: idle, with its parameters unchanged and its ledger in order. -/
structure Ready (c : Config) (cmds : List Request) (s : State) : Prop where
  cfg : s.cfg = c
  idle : s.Idle
  inputs : s.inputs = cmds.map .command
  ledger : s.LedgerOk

/-- One step takes one command, illegal or in contract, and gives one response (R21, R156, R173). -/
theorem Ready.advance {c : Config} {r : Request} {cmds : List Request} {s : State} (h : Ready c (r :: cmds) s)
    (hin : ∀ i, decode r.word = .ok i → InContract c i r.side) :
    Ready c cmds (advance s) ∧ (advance s).seq = s.seq + 1 := by
  obtain ⟨rfl, hidle, hinputs, hledger⟩ := h
  cases hdecode : decode r.word with
  | ok i =>
    rw [advance_of_next (step_command_of_inContract hidle hdecode (hin i hdecode) hinputs)]
    exact ⟨⟨rfl, hidle, rfl, ledgerOk_append hledger (goodResponse_ok _)⟩, rfl⟩
  | error e =>
    have hstep := step_input hidle.faults_eq hinputs fun _ => hidle.reqReady
    rw [takeInput, issue_of_illegal hdecode] at hstep
    rw [advance_of_next hstep]
    exact ⟨⟨rfl, hidle, rfl, ledgerOk_append hledger goodResponse_illegal⟩, rfl⟩

/-- After as many steps as commands taken, as many responses have been given. -/
theorem Ready.runFor {c : Config} {cmds : List Request} {s : State} (h : Ready c cmds s)
    (hin : ∀ r ∈ cmds, ∀ i, decode r.word = .ok i → InContract c i r.side) {n : Nat} (hn : n ≤ cmds.length) :
    Ready c (cmds.drop n) (runFor n s) ∧ (runFor n s).seq = s.seq + n := by
  induction n generalizing cmds s with
  | zero => exact ⟨h, rfl⟩
  | succ n ih =>
    cases cmds with
    | nil => cases hn
    | cons r cmds =>
      obtain ⟨hnext, hseq⟩ := h.advance (hin r List.mem_cons_self)
      obtain ⟨hrun, hrunSeq⟩ := ih hnext (fun r' hr' => hin r' (List.mem_cons_of_mem _ hr')) (Nat.le_of_succ_le_succ hn)
      refine ⟨hrun, ?_⟩
      rw [Machine.runFor, hrunSeq, hseq]
      omega

theorem Ready.ended_iff {c : Config} {cmds : List Request} {s : State} (h : Ready c cmds s) (n : Nat) :
    s.ended n = true ↔ s.seq = n := by
  obtain ⟨-, hf, -, -, hfaults⟩ := h.idle
  simp [State.ended, hf, hfaults]

/-- Settles O60: each step takes one command, so the index reaches the number of commands with the last of them and not before. -/
theorem commandListRunsToItsEnd : Obligations.CommandListRunsToItsEnd := by
  unfold Obligations.CommandListRunsToItsEnd
  intro c m cmds hin
  have hstart : Ready c cmds (launch c m cmds) := ⟨rfl, launch_idle c m cmds, rfl, rfl, nofun⟩
  have hrun (n : Nat) (hn : n ≤ cmds.length) := hstart.runFor hin hn
  obtain ⟨hend, hseq⟩ := hrun cmds.length le_rfl
  replace hseq : (runFor cmds.length (launch c m cmds)).seq = cmds.length := hseq.trans (Nat.zero_add _)
  have hended := (hend.ended_iff _).mpr hseq
  refine ⟨fun n hn => ?_, hended, hseq, ?_, _, _, if_pos hended, hend.ledger.1.trans hseq, hend.ledger.2⟩
  · obtain ⟨hready, hn'⟩ := hrun n hn.le
    rw [Bool.eq_false_iff, ne_eq, hready.ended_iff, hn', launch_seq]
    omega
  · rw [hend.inputs, List.drop_length, List.map_nil]

end Sys2Proof.Machine
end

section
/-!
What a command does as one transition: its outcomes (R171), its frame (R47, R108), what it depends on (R22, R47, R83), and the laws
that the spec derives for the primitives (R43, R107, R108), the fields (R138, R139) and the flow-mod command (R155).
-/

namespace Sys2Proof.Machine

/-! ### The outcomes of a command (R171) -/

/-- The outcome of a command, whole: by length, and then by where its range ends (R50, R51, R48; log 5). -/
theorem exec_cases (i : Instr) (s : State) :
    (s.bufLen < leastLen s.cfg i ∧ exec i s = .fault (contractFault s.cfg i s.sideband)) ∨
    (leastLen s.cfg i ≤ s.bufLen ∧
      s.cfg.addressSpace < s.sideband.address (accessOf s.cfg i).loc.off + (accessOf s.cfg i).loc.width ∧
      exec i s = .fault (.noSuchAddress i (s.sideband.address (accessOf s.cfg i).loc.off + (accessOf s.cfg i).loc.width - 1))) ∨
    (leastLen s.cfg i ≤ s.bufLen ∧ blocked s.cfg i (accessOf s.cfg i) s.sideband = none ∧
      exec i s = .next (complete (accessOf s.cfg i) s)) := by
  rw [exec_eq_perform, ← accessOf_minLen, perform]
  obtain ⟨hlen, h⟩ | ⟨hlen, htop, h⟩ | ⟨hlen, -, h⟩ := blocked_cases s.cfg i (accessOf s.cfg i) s.sideband <;> rw [h]
  · exact .inl ⟨hlen, rfl⟩
  · exact .inr (.inl ⟨hlen, htop, rfl⟩)
  · exact .inr (.inr ⟨hlen, rfl, rfl⟩)

/-- A range that a long enough buffer holds runs past the top of memory only if the buffer does (R48). -/
theorem not_fits_of_top {s : State} {i : Instr} (hlen : leastLen s.cfg i ≤ s.bufLen)
    (htop : s.cfg.addressSpace < s.sideband.address (accessOf s.cfg i).loc.off + (accessOf s.cfg i).loc.width) :
    ¬ s.sideband.fits s.cfg := by
  intro hfits
  obtain ⟨-, h⟩ := (blocked_eq_none_iff _ _ _ _).mp (blocked_of_inContract (i := i) ⟨hlen, hfits⟩)
  omega

/-- Settles O15: length first, then the top of memory; what passes both completes. -/
theorem commandOutcomesAreExactly : Obligations.CommandOutcomesAreExactly := by
  unfold Obligations.CommandOutcomesAreExactly
  intro i s
  refine ⟨fun t h => ?_, ?_, fun hin => ⟨_, exec_of_inContract hin⟩, fun f h => ?_, exec_ne_refused i s⟩
  · obtain ⟨-, rfl⟩ := exec_eq_next h
    exact ⟨complete_seq _ _, by simp⟩
  · obtain ⟨hlen, hexec⟩ | ⟨hlen, -, hexec⟩ | ⟨hlen, -, hexec⟩ := exec_cases i s <;> rw [hexec]
    · exact ⟨fun _ => hlen, fun _ => ⟨_, _, _, rfl⟩⟩
    · exact ⟨nofun, fun h => absurd h hlen.not_gt⟩
    · exact ⟨nofun, fun h => absurd h hlen.not_gt⟩
  · obtain ⟨-, hexec⟩ | ⟨hlen, htop, hexec⟩ | ⟨-, -, hexec⟩ := exec_cases i s <;> cases hexec.symm.trans h
    · exact .inl ⟨_, _, _, rfl⟩
    · exact .inr ⟨not_fits_of_top hlen htop, _, Nat.le_sub_one_of_lt htop, rfl⟩

/-! ### The frame of a command (R47, R108) -/

/-- Settles O43: a get's memory is the one it found, and completing touches responses and index alone. -/
theorem getsChangeNothingButTheResponse : Obligations.GetsChangeNothingButTheResponse := by
  unfold Obligations.GetsChangeNothingButTheResponse
  intro i s t hget h
  obtain ⟨-, rfl⟩ := exec_eq_next h
  obtain ⟨n, hn⟩ := isSet_eq_false_iff.mp hget
  exact ⟨fun a => by rw [complete_mem, completedMem_load hn], completedValue (accessOf s.cfg i) s, rfl⟩

theorem responseWord_ok_zero : responseWord .ok 0 = 0 := by decide

/-- What a set leaves, when it answers at all. -/
theorem exec_set_eq_next {i : Instr} {s t : State} (hset : isSet s.cfg i = true) (h : exec i s = .next t) :
    ∃ bs, (accessOf s.cfg i).action = .store bs ∧
      t = { s with mem := memWrite s.mem (s.sideband.address (accessOf s.cfg i).loc.off) bs }.answered .ok 0 := by
  obtain ⟨bs, hbs⟩ := isSet_eq_true_iff.mp hset
  obtain ⟨-, rfl⟩ := exec_eq_next h
  exact ⟨bs, hbs, complete_store hbs s⟩

/-- Settles O44: a set stores as many bytes as its range has. -/
theorem setsChangeOnlyTheirRange : Obligations.SetsChangeOnlyTheirRange := by
  unfold Obligations.SetsChangeOnlyTheirRange
  intro i s t hset h
  obtain ⟨bs, hbs, rfl⟩ := exec_set_eq_next hset h
  rw [← accessOf_store_length hbs, ← responseWord_ok_zero]
  exact ⟨fun a ha => read_memWrite_outside _ _ _ _ ha, rfl⟩

/-- Writing the same bytes again changes nothing. -/
theorem read_memWrite_twice (m : Memory) (a : Nat) (bs : List Byte) (a' : Nat) :
    (memWrite (memWrite m a bs) a bs).read a' = (memWrite m a bs).read a' := by
  rw [read_memWrite (memWrite m a bs), read_memWrite]
  split <;> rfl

/-- A command that nothing blocks completes (R171). -/
theorem exec_of_unblocked {i : Instr} {s : State} (h : blocked s.cfg i (accessOf s.cfg i) s.sideband = none) :
    exec i s = .next (complete (accessOf s.cfg i) s) := by
  rw [exec_eq_perform, perform, h]

/-- Settles O45: the second set is blocked no more than the first, and writes the same bytes to the same range. -/
theorem setsAreIdempotent : Obligations.SetsAreIdempotent := by
  unfold Obligations.SetsAreIdempotent
  intro i s t hset h
  obtain ⟨hblocked, -⟩ := exec_eq_next h
  obtain ⟨bs, hbs, rfl⟩ := exec_set_eq_next hset h
  refine ⟨_, exec_of_unblocked (s := State.answered { s with mem := memWrite s.mem _ bs } .ok 0) hblocked, fun a => ?_⟩
  rw [complete_mem, State.answered_cfg, completedMem_store hbs]
  exact read_memWrite_twice _ _ _ _

/-! ### What a command depends on (R22, R47, R83, R178) -/

theorem completedValue_of_sameRange {x : Access} {s u : State} (h : SameRange s u x.loc.off x.loc.width) :
    completedValue x u = completedValue x s := by
  unfold completedValue
  rw [memRead_of_sameRange h]

/-- Settles O46: the value is read out of the range, and the contract looks at the buffer alone. -/
theorem responseDependsOnTheRangeOnly : Obligations.ResponseDependsOnTheRangeOnly := by
  unfold Obligations.ResponseDependsOnTheRangeOnly
  intro i s s' hin hrange
  have hvalue := completedValue_of_sameRange hrange
  obtain ⟨hcfg, hside, -⟩ := hrange
  have hexec' := exec_of_inContract (i := i) (s := s') (by rwa [hcfg, hside])
  rw [hcfg] at hexec'
  exact ⟨_, _, _, exec_of_inContract hin, hexec', rfl, by rw [complete_responses, hvalue]⟩

/-- Settles O47: neither the contract nor what completing leaves in memory looks at responses or index. -/
theorem noStatusIsSticky : Obligations.NoStatusIsSticky := by
  unfold Obligations.NoStatusIsSticky
  intro i s rws k hin
  exact ⟨_, _, exec_of_inContract hin, exec_of_inContract (s := { s with responses := rws, seq := k }) hin⟩

/-- Settles O48: a length above the largest gives the same `LEN`, and nothing else looks at it. -/
theorem lengthsAboveTheLargestActAsIt : Obligations.LengthsAboveTheLargestActAsIt := by
  unfold Obligations.LengthsAboveTheLargestActAsIt
  intro i s b hlen
  have hbufLen : b.bufLen s.cfg = Sideband.bufLen { b with len := s.cfg.maxLen } s.cfg := by
    rw [Sideband.bufLen, Sideband.bufLen, Nat.min_eq_left hlen, Nat.min_self]
  have hblocked : blocked s.cfg i (accessOf s.cfg i) b = blocked s.cfg i (accessOf s.cfg i) { b with len := s.cfg.maxLen } := by
    unfold blocked
    rw [hbufLen]
    rfl
  rw [exec_eq_perform, exec_eq_perform, perform, perform, hblocked]
  cases blocked s.cfg i (accessOf s.cfg i) { b with len := s.cfg.maxLen } with
  | none =>
    refine ⟨fun t h => ?_, nofun⟩
    cases h
    rfl
  | some f => exact ⟨nofun, fun _ h => h⟩

/-! ### The access of a primitive (R101 to R106) -/

section
variable {wc : Nat} (hwc : wc ≤ 2) (off : Offset) (c : Config)
include hwc

theorem accessOf_primGetOf : accessOf c (primGetOf wc off) = primGet (2 ^ wc) off := by
  interval_cases wc <;> rfl

theorem accessOf_primSetOf (v : Value) : accessOf c (primSetOf wc off v) = primSet (2 ^ wc) off v.toNat := by
  have hcut (w n : Nat) (hw : 2 ^ w = 256 ^ n) : primSet n off (v.setWidth w).toNat = primSet n off v.toNat := by
    rw [primSet, primSet, BitVec.toNat_setWidth, hw, toBe_mod]
  interval_cases wc
  · exact hcut 8 1 rfl
  · exact hcut 16 2 rfl
  · rfl

theorem leastLen_primGetOf : leastLen c (primGetOf wc off) = off.toNat + 2 ^ wc := by
  rw [← accessOf_minLen, accessOf_primGetOf hwc, primGet]

theorem leastLen_primSetOf (v : Value) : leastLen c (primSetOf wc off v) = off.toNat + 2 ^ wc := by
  rw [← accessOf_minLen, accessOf_primSetOf hwc, primSet]

end

section
variable {wc : Nat} {off : Offset} {s : State} (hwc : wc ≤ 2) (hlen : off.toNat + 2 ^ wc ≤ s.bufLen)
  (hfits : s.sideband.fits s.cfg)
include hwc hlen hfits

theorem exec_primGetOf :
    exec (primGetOf wc off) s = .next (s.answered .ok (BitVec.ofNat 32
      (fromBe (memRead s.mem (s.sideband.address off.toNat) (2 ^ wc))))) := by
  have h := readsAs_of_load_width (i := primGetOf wc off) (s := s) (by rw [accessOf_primGetOf hwc, primGet])
  rw [leastLen_primGetOf hwc, accessOf_primGetOf hwc] at h
  exact h.2 hlen hfits

theorem exec_primSetOf (v : Value) :
    exec (primSetOf wc off v) s = .next (State.answered
      { s with mem := memWrite s.mem (s.sideband.address off.toNat) (toBe (2 ^ wc) v.toNat) } .ok 0) := by
  rw [exec_of_inContract ⟨by rwa [leastLen_primSetOf hwc], hfits⟩, accessOf_primSetOf hwc, complete_store rfl, primSet]

end

/-! ### Parts of what was written (R40, R43) -/

theorem drop_toBe (n k v : Nat) : (toBe (n + k) v).drop n = toBe k v := by
  induction n with
  | zero => simp
  | succ n ih => rw [Nat.succ_add, toBe, List.drop_succ_cons, ih]

/-- The first bytes of `to_be` are those of the number without its last bytes (R11). -/
theorem take_toBe (n k v : Nat) : (toBe (n + k) v).take n = toBe n (v / 256 ^ k) := by
  induction n with
  | zero => rfl
  | succ n ih =>
    rw [Nat.succ_add, toBe, List.take_succ_cons, ih, toBe, Nat.shiftRight_eq_div_pow, Nat.shiftRight_eq_div_pow,
      Nat.div_div_eq_div_mul]
    congr 3
    rw [show (256 : Nat) = 2 ^ 8 by rfl, ← pow_mul, ← pow_add]
    ring

/-- Reading part of what `MemWrite` has just written. -/
theorem memRead_memWrite_part (m : Memory) (a : Nat) (bs : List Byte) {j n : Nat} (h : j + n ≤ bs.length) :
    memRead (memWrite m a bs) (a + j) n = (bs.drop j).take n := by
  induction n generalizing j with
  | zero => rfl
  | succ n ih =>
    have hj : j < bs.length := by omega
    rw [memRead, Nat.add_assoc, ih (by omega), read_memWrite_getElem? (List.getElem?_eq_getElem hj), List.drop_eq_getElem_cons hj,
      List.take_succ_cons]

/-- A get of `n` bytes inside the `w` bytes of a set sees its own bytes of the value (R43). -/
theorem fromBe_memRead_part (m : Memory) (a : Nat) {w j n : Nat} (h : j + n ≤ w) (v : Nat) :
    fromBe (memRead (memWrite m a (toBe w v)) (a + j) n) = v / 256 ^ (w - j - n) % 256 ^ n := by
  rw [memRead_memWrite_part _ _ _ (by rwa [length_toBe])]
  obtain ⟨k, rfl⟩ := Nat.exists_eq_add_of_le h
  rw [Nat.add_assoc, drop_toBe, take_toBe, fromBe_toBe_mod, show j + (n + k) - j - n = k by omega]

/-! ### The laws of the primitives (R43, R44, R107, R108) -/

/-- Settles O22: the get reads what the set stored, and `from_be` undoes `to_be`. -/
theorem primitiveRoundTrip : Obligations.PrimitiveRoundTrip := by
  unfold Obligations.PrimitiveRoundTrip
  intro wc off v s hwc hv hlen hfits
  refine ⟨_, exec_primSetOf hwc hlen hfits v, fun u hu => ?_⟩
  have hread : fromBe (memRead u.mem (u.sideband.address off.toNat) (2 ^ wc)) = v.toNat := by
    rw [memRead_of_sameRange hu]
    have hpart := fromBe_memRead_part s.mem (s.sideband.address off.toNat) (j := 0) (Nat.zero_add (2 ^ wc)).le v.toNat
    simpa [Nat.mod_eq_of_lt hv] using hpart
  obtain ⟨hcfg, hside, -⟩ := hu
  rw [State.answered_cfg] at hcfg
  rw [State.answered_sideband] at hside
  rw [exec_primGetOf hwc (by rwa [State.bufLen, hcfg, hside]) (by rwa [hcfg, hside]), hread, BitVec.ofNat_toNat, BitVec.setWidth_eq]

/-- Settles O23: the get's bytes are a stretch of the set's. -/
theorem mixedWidthReadSeesItsBits : Obligations.MixedWidthReadSeesItsBits := by
  unfold Obligations.MixedWidthReadSeesItsBits
  intro wc wc' j off off' v s hwc hwc' hj hoff hv hlen hfits
  have hlen' : off'.toNat + 2 ^ wc' ≤ s.bufLen := by omega
  refine ⟨_, exec_primSetOf hwc hlen hfits v, ?_⟩
  rw [← fromBe_memRead_part s.mem (s.sideband.address off.toNat) hj, ← Sideband.address_add, ← hoff]
  exact exec_primGetOf (s := State.answered { s with mem := _ } .ok 0) hwc' hlen' hfits

/-- Two writes to ranges that do not overlap leave the same bytes in either order. -/
theorem read_memWrite_comm (m : Memory) {a a' : Nat} {bs bs' : List Byte}
    (h : a + bs.length ≤ a' ∨ a' + bs'.length ≤ a) (k : Nat) :
    (memWrite (memWrite m a bs) a' bs').read k = (memWrite (memWrite m a' bs') a bs).read k := by
  by_cases hk : a ≤ k ∧ k < a + bs.length
  · rw [read_memWrite_outside _ a' bs' k (by omega)]
    exact read_memWrite_congr (read_memWrite_outside _ _ _ _ (by omega)).symm _ _
  · rw [read_memWrite_outside _ a bs k (by omega)]
    exact read_memWrite_congr (read_memWrite_outside _ _ _ _ (by omega)) _ _

/-- Settles O24: each byte is in at most one of the ranges, and the one set that reaches it decides it in either order. -/
theorem disjointSetsCommute : Obligations.DisjointSetsCommute := by
  unfold Obligations.DisjointSetsCommute
  intro wc wc' off off' v v' s hwc hwc' hdisjoint hlen hlen' hfits
  have hset (u : State) (hcfg : u.cfg = s.cfg) (hside : u.sideband = s.sideband) :=
    exec_primSetOf (s := u) (off := off) hwc (by rwa [State.bufLen, hcfg, hside]) (by rwa [hcfg, hside]) v
  have hset' (u : State) (hcfg : u.cfg = s.cfg) (hside : u.sideband = s.sideband) :=
    exec_primSetOf (s := u) (off := off') hwc' (by rwa [State.bufLen, hcfg, hside]) (by rwa [hcfg, hside]) v'
  refine ⟨_, _, _, _, hset s rfl rfl, hset' _ rfl rfl, hset' s rfl rfl, hset _ rfl rfl, fun a => ?_⟩
  refine read_memWrite_comm s.mem ?_ a
  simp only [length_toBe, Sideband.address, State.answered_sideband]
  omega

/-- A buffer has at most 65536 bytes if `AW` is at most 16 (R6, R83; D7). -/
theorem bufLen_le {s : State} (haw : s.cfg.aw ≤ 16) : s.bufLen ≤ 65536 :=
  (Nat.min_le_left _ _).trans (Nat.pow_le_pow_right (by decide) haw)

/-- Settles O25: no buffer is long enough. -/
theorem offsetsDoNotWrap : Obligations.OffsetsDoNotWrap := by
  unfold Obligations.OffsetsDoNotWrap
  intro off v x s haw
  have hmax := bufLen_le haw
  refine ⟨fun hoff => ?_, fun hoff => ?_⟩
  · have hshort : s.bufLen < off.toNat + 2 := by omega
    rw [← hoff]
    exact ⟨exec_of_short (i := .getU16 off) hshort, exec_of_short (i := .setU16 off v) hshort⟩
  · have hshort : s.bufLen < off.toNat + 4 := by omega
    exact ⟨exec_of_short (i := .getU32 off) hshort, exec_of_short (i := .setU32 off x) hshort⟩

/-! ### The laws of the fields (R138, R139) -/

theorem exec_setStatsType {s : State} (x : Half) (hlen : fieldMinLen .statsType ≤ s.bufLen) (hfits : s.sideband.fits s.cfg) :
    exec (.setStatsType x) s = .next (State.answered
      { s with mem := memWrite s.mem (s.sideband.address 8) (toBe 2 x.toNat) } .ok 0) := by
  have h := exec_fieldSetOf (F := .statsType) hlen hfits (x.setWidth 32)
  rw [fieldSetOf_statsType, BitVec.toNat_setWidth_of_le (by decide)] at h
  exact h

/-- Two bytes and two more, as a number. -/
theorem toNat_append_half_bytes (x : Half) (b b' : Byte) :
    (x ++ b ++ b' : BitVec 32).toNat = x.toNat * 256 ^ 2 + (b.toNat * 256 + b'.toNat) := by
  rw [BitVec.toNat_append, BitVec.toNat_append, ← Nat.shiftLeft_add_eq_or_of_lt b'.isLt, ← Nat.shiftLeft_add_eq_or_of_lt b.isLt,
    Nat.shiftLeft_eq, Nat.shiftLeft_eq]
  ring

theorem memRead_add (m : Memory) (a n k : Nat) : memRead m a (n + k) = memRead m a n ++ memRead m (a + n) k := by
  induction n generalizing a with
  | zero => simp [memRead]
  | succ n ih => rw [Nat.succ_add, memRead, memRead, ih, List.cons_append, Nat.add_right_comm, Nat.add_assoc]

theorem fromBe_append (bs bs' : List Byte) : fromBe (bs ++ bs') = fromBe bs * 256 ^ bs'.length + fromBe bs' := by
  induction bs with
  | nil => simp [fromBe]
  | cons b bs ih =>
    rw [List.cons_append, fromBe, fromBe, ih, List.length_append, pow_add]
    ring

/-- The fields lie apart, but for stats type and experimenter id (R120, R138). -/
theorem fieldLocation_apart {F G : Field} (hne : F ≠ G) (h : ¬ (F = .statsType ∧ G = .experimenterId))
    (h' : ¬ (F = .experimenterId ∧ G = .statsType)) :
    (fieldLocation F).off + (fieldLocation F).width ≤ (fieldLocation G).off ∨
      (fieldLocation G).off + (fieldLocation G).width ≤ (fieldLocation F).off := by
  revert hne h h'
  cases F <;> cases G <;> decide

/-- What `set_experimenter_id` leaves in the two bytes it shares with stats type: its high half (R138; C2). -/
theorem fromBe_high_half (m : Memory) (a : Nat) (v : Value) :
    fromBe (memRead (memWrite m a (toBe 4 v.toNat)) a 2) = v.toNat / 2 ^ 16 := by
  have hpart := fromBe_memRead_part m a (w := 4) (j := 0) (n := 2) (by decide) v.toNat
  have hv := v.isLt
  rw [Nat.add_zero] at hpart
  omega

/-- What `set_stats_type` leaves in the four bytes of experimenter id: the two it writes, and the two after them (R138). -/
theorem fromBe_half_then_bytes (s : State) (off : Nat) (x : Half) :
    fromBe (memRead (memWrite s.mem (s.sideband.address off) (toBe 2 x.toNat)) (s.sideband.address off) 4) =
      (x ++ s.buf (off + 2) ++ s.buf (off + 3) : BitVec 32).toNat := by
  have hfirst : memRead (memWrite s.mem (s.sideband.address off) (toBe 2 x.toNat)) (s.sideband.address off) 2 = toBe 2 x.toNat := by
    simpa using memRead_memWrite s.mem (s.sideband.address off) (toBe 2 x.toNat)
  have hrest : memRead (memWrite s.mem (s.sideband.address off) (toBe 2 x.toNat)) (s.sideband.address off + 2) 2 =
      memRead s.mem (s.sideband.address (off + 2)) 2 :=
    memRead_congr fun a hlo _ => read_memWrite_outside _ _ _ _ (.inr (by simpa using hlo))
  rw [memRead_add _ _ 2 2, fromBe_append, hfirst, hrest, fromBe_toBe x.isLt, fromBe_memRead_two, length_memRead,
    toNat_append_half_bytes]

/-- Settles O34: the overlay is read through the bytes both fields have; the other fields lie apart. -/
theorem overlayAndNoOtherOverlap : Obligations.OverlayAndNoOtherOverlap := by
  unfold Obligations.OverlayAndNoOtherOverlap
  intro v x s hlen hfits
  have hmin (F : Field) : fieldMinLen F ≤ s.bufLen := by
    have h16 : fieldMinLen F ≤ 16 := by cases F <;> decide
    omega
  refine ⟨⟨_, exec_fieldSetOf (hmin .experimenterId) hfits v, ?_⟩, ⟨_, exec_setStatsType x (hmin .statsType) hfits, ?_⟩,
    fun F G hne h h' => ⟨_, exec_fieldSetOf (hmin F) hfits v, rfl, rfl, fun k hk => ?_⟩⟩
  · rw [← fromBe_high_half s.mem (s.sideband.address 8)]
    exact exec_fieldGetOf (F := .statsType) (s := State.answered { s with mem := _ } .ok 0) (hmin .statsType) hfits
  · rw [← BitVec.setWidth_eq (x ++ s.buf 10 ++ s.buf 11 : BitVec 32), ← BitVec.ofNat_toNat, ← fromBe_half_then_bytes s 8]
    exact exec_fieldGetOf (F := .experimenterId) (s := State.answered { s with mem := _ } .ok 0) (hmin .experimenterId) hfits
  · have hapart := fieldLocation_apart hne h h'
    refine read_memWrite_outside _ _ _ _ ?_
    simp only [length_toBe, Sideband.address, State.answered_sideband]
    omega

/-- The width code of a field's primitive. -/
theorem le_two_of_two_pow_eq_width {F : Field} {wc : Nat} (h : 2 ^ wc = (fieldLocation F).width) : wc ≤ 2 := by
  have hwidth : (fieldLocation F).width ≤ 2 ^ 2 := by cases F <;> decide
  exact (Nat.pow_le_pow_iff_right (by decide)).mp (h ▸ hwidth)

/-- On a buffer that fits, a command ends in a next state if and only if the buffer is long enough for it. -/
theorem exec_next_iff {i : Instr} {s : State} (hfits : s.sideband.fits s.cfg) :
    (∃ t, exec i s = .next t) ↔ leastLen s.cfg i ≤ s.bufLen := by
  obtain ⟨hlen, hexec⟩ | ⟨hlen, htop, -⟩ | ⟨hlen, -, hexec⟩ := exec_cases i s
  · rw [hexec]
    exact ⟨nofun, fun h => absurd h hlen.not_ge⟩
  · exact absurd hfits (not_fits_of_top hlen htop)
  · exact ⟨fun _ => hlen, fun _ => ⟨_, hexec⟩⟩

theorem exec_fault_iff {i : Instr} {s : State} (hfits : s.sideband.fits s.cfg) :
    (∃ f, exec i s = .fault f) ↔ s.bufLen < leastLen s.cfg i := by
  rw [← Nat.not_le, ← exec_next_iff hfits]
  cases h : exec i s with
  | next t => simp
  | fault f => simp
  | refused q => exact absurd h (exec_ne_refused i s q)

/-- Two commands on a buffer that fits: the first completes and the second faults if the buffer is long enough for the first only. -/
theorem exec_next_and_fault_iff {i j : Instr} {s : State} (hfits : s.sideband.fits s.cfg) :
    (∃ t f, exec i s = .next t ∧ exec j s = .fault f) ↔ leastLen s.cfg i ≤ s.bufLen ∧ s.bufLen < leastLen s.cfg j := by
  rw [← exec_next_iff hfits, ← exec_fault_iff hfits]
  simp only [exists_and_left, exists_and_right]

/-- The lengths that hold a field but are below its `MINLEN` (R52, R139). -/
theorem short_of_minLen_iff (F : Field) (len : Nat) :
    ((fieldLocation F).off + (fieldLocation F).width ≤ len ∧ len < fieldMinLen F) ↔
      (F = .version ∧ 1 ≤ len ∧ len ≤ 7) ∨ (F = .type ∧ 2 ≤ len ∧ len ≤ 7) ∨ (F = .length ∧ 4 ≤ len ∧ len ≤ 7) ∨
      (F = .experimenterId ∧ 12 ≤ len ∧ len ≤ 15) := by
  cases F <;> simp [fieldLocation, fieldMinLen] <;> omega

/-- Settles O35: the accessor and the primitive make the same access and differ in the contract alone. -/
theorem accessorsEqualPrimitives : Obligations.AccessorsEqualPrimitives := by
  unfold Obligations.AccessorsEqualPrimitives
  intro F wc off v s hwidth hoff hfits
  have hwc := le_two_of_two_pow_eq_width hwidth
  refine ⟨fun hlen => ?_, ?_, ?_⟩
  · have hprim : off.toNat + 2 ^ wc ≤ s.bufLen := by
      rw [hoff, hwidth]
      exact (fieldMinLen_covers F).trans hlen
    have hget := exec_fieldGetOf hlen hfits
    have hset := exec_fieldSetOf hlen hfits v
    refine ⟨⟨_, hget⟩, ?_, ⟨_, hset⟩, ?_⟩
    · rw [hget, exec_primGetOf hwc hprim hfits, hoff, hwidth]
    · rw [hset, exec_primSetOf hwc hprim hfits, hoff, hwidth]
  · rw [exec_next_and_fault_iff hfits, exec_next_and_fault_iff hfits, leastLen_primGetOf hwc, leastLen_primSetOf hwc,
      leastLen_fieldGetOf, leastLen_fieldSetOf]
  · rw [exec_next_and_fault_iff hfits, leastLen_primSetOf hwc, leastLen_fieldSetOf, hoff, hwidth]
    exact short_of_minLen_iff F s.bufLen

/-! ### The laws of the flow-mod command (R155) -/

/-- The two locations of the router lie apart (R150). -/
theorem flowModLocation_apart {c : Config} {ver ver' : VersionTag} (h : ver = c.verOneZero ↔ ver' ≠ c.verOneZero) :
    (flowModLocation c ver).off + (flowModLocation c ver).width ≤ (flowModLocation c ver').off ∨
      (flowModLocation c ver').off + (flowModLocation c ver').width ≤ (flowModLocation c ver).off := by
  by_cases hver : ver = c.verOneZero
  · rw [flowModLocation_of_eq hver, flowModLocation_of_ne (h.mp hver)]
    decide
  · rw [flowModLocation_of_ne hver, flowModLocation_of_eq (not_not.mp (mt h.mpr hver))]
    decide

/-- A byte stored in one or two bytes is the low byte of what is read there (R154, R159). -/
theorem loadedValue_toBe {w : Nat} (hw : 1 ≤ w) (v : Byte) : loadedValue 1 (toBe w v.toNat) = v.setWidth 32 := by
  have hlt : v.toNat < 256 ^ w := v.isLt.trans_le (Nat.le_self_pow (by omega) 256)
  rw [loadedValue, fromBe_toBe hlt, narrow, pow_one, Nat.mod_eq_of_lt v.isLt, BitVec.ofNat_toNat]

theorem flowModLocation_width_pos (c : Config) (ver : VersionTag) : 1 ≤ (flowModLocation c ver).width := by
  unfold flowModLocation
  split <;> decide

/-- After `set_command` a get that is routed to the same location answers the value (R155). -/
theorem exec_getCommand_of_same_location {ver ver' : VersionTag} {v : Byte} {s : State}
    (hin : InContract s.cfg (.setCommand ver v) s.sideband) (hloc : flowModLocation s.cfg ver' = flowModLocation s.cfg ver)
    {t : State} (ht : exec (.setCommand ver v) s = .next t) :
    exec (.getCommand ver') t = .next (t.answered .ok (v.setWidth 32)) := by
  cases (exec_setCommand hin).symm.trans ht
  obtain ⟨hlen, hfits⟩ := hin
  have hin' : InContract s.cfg (.getCommand ver') s.sideband :=
    ⟨by rwa [leastLen_getCommand, hloc, ← leastLen_setCommand s.cfg ver v], hfits⟩
  have hread := memRead_memWrite s.mem (s.sideband.address (flowModLocation s.cfg ver).off)
    (toBe (flowModLocation s.cfg ver).width v.toNat)
  rw [length_toBe] at hread
  have hvalue : loadedValue 1 (memRead (memWrite s.mem (s.sideband.address (flowModLocation s.cfg ver).off)
      (toBe (flowModLocation s.cfg ver).width v.toNat)) (s.sideband.address (flowModLocation s.cfg ver').off)
      (flowModLocation s.cfg ver').width) = v.setWidth 32 := by
    rw [hloc, hread, loadedValue_toBe (flowModLocation_width_pos s.cfg ver)]
  rw [← hvalue]
  exact exec_getCommand (s := State.answered { s with mem := _ } .ok 0) hin'

/-- Settles O40: the same location gives the value back, and a set at the other location does not touch what the get reads. -/
theorem commandRoundTripAndNonAliasing : Obligations.CommandRoundTripAndNonAliasing := by
  unfold Obligations.CommandRoundTripAndNonAliasing
  intro ver ver' v s hin
  have hset := exec_setCommand hin
  refine ⟨_, hset, exec_getCommand_of_same_location hin rfl hset, fun hver hver' => ?_,
    fun halias hin' => ⟨_, exec_getCommand hin', ?_⟩⟩
  · exact exec_getCommand_of_same_location hin ((flowModLocation_of_ne hver').trans (flowModLocation_of_ne hver).symm) hset
  · have hapart := flowModLocation_apart halias
    have hread : memRead (memWrite s.mem (s.sideband.address (flowModLocation s.cfg ver).off)
        (toBe (flowModLocation s.cfg ver).width v.toNat)) (s.sideband.address (flowModLocation s.cfg ver').off)
        (flowModLocation s.cfg ver').width =
        memRead s.mem (s.sideband.address (flowModLocation s.cfg ver').off) (flowModLocation s.cfg ver').width := by
      refine memRead_congr fun a hlo hhi => read_memWrite_outside _ _ _ _ ?_
      simp only [length_toBe, Sideband.address] at *
      omega
    rw [← hread]
    exact exec_getCommand (s := State.answered { s with mem := _ } .ok 0) hin'

end Sys2Proof.Machine
end
